-- ==== Sys2Proof/Word.lean ====
section
/-! DEFINITION. The value types of the machine (00_scope.md R7, 10_state.md R30, R32, R38). -/

namespace Sys2Proof

/-- A general register or a memory byte: `u8` (R7). -/
abbrev Byte := BitVec 8

/-- The index register, the program counter, a stack entry or an instruction word: `u16` (R7). -/
abbrev Word := BitVec 16

/-- The number of a general register, 0 to 15 (10_state.md R30). -/
abbrev RegIx := Fin 16

/-- The number of a key, 0 to 15 (10_state.md R38). -/
abbrev KeyIx := Fin 16

/-- A column of the framebuffer, 0 to 63 (10_state.md R37). -/
abbrev Col := Fin 64

/-- A row of the framebuffer, 0 to 31 (10_state.md R37). -/
abbrev Row := Fin 32

end Sys2Proof
end

