-- ==== Sys2Proof/Config.lean ====
section
/-! DEFINITION. The parameters of the hardware (00_scope.md R5) and its free values. The parameter
`FONT` (R5, 20_memory.md R69) is `Config.font`, in Machine/Font.lean. -/

namespace Sys2Proof.Config

/-- `MEM_SIZE` (R5): addresses 0x000 to 0xFFF. -/
@[simp] def memSize : Nat := 4096

/-- `FLAG_REG` (R5): the register that doubles as the flag. -/
@[simp] def flagReg : RegIx := 15

/-- `STACK_DEPTH` (R5). -/
@[simp] def stackDepth : Nat := 16

/-- `SCREEN_W` (R5). -/
@[simp] def screenW : Nat := 64

/-- `SCREEN_H` (R5). -/
@[simp] def screenH : Nat := 32

/-- `FONT_BASE` (R5). -/
@[simp] def fontBase : Nat := 0x050

/-- The size of the font table: 16 glyphs of `FONT_GLYPH_BYTES` = 5 bytes (R5). -/
@[simp] def fontBytes : Nat := 80

/-- `PROG_BASE` (R5): the load address and the reset value of the program counter. -/
@[simp] def progBase : Nat := 0x200

/-- `MAX_ROM` (R5): 4096 − 0x200 = 3584 bytes. -/
@[simp] def maxRom : Nat := 3584

/-- FREE VALUE. The byte the random source answers at its `k`-th draw (60_exceptions.md R258,
93 U9, D21): any byte; nothing constrains it. Log 6. -/
opaque randomByte : Nat → Byte

/-- FREE VALUE. `KeyNoneValue` (R5, 45_timer_input.md R222, 93 U8, D5): the byte that the `k`-th
Fx0A with no key held writes: any byte; nothing constrains it. Log 7. -/
opaque keyNoneValue : Nat → Byte

end Sys2Proof.Config
end

