-- ==== Sys2Proof/Machine/State.lean ====
section
/-! DEFINITION. The state of the CORE block as plain data (10_state.md), the reasons a step reports,
and the state after construction (10_state.md R42, 70_reset_and_hazards.md R280). -/

namespace Sys2Proof.Machine

/-- The fatal errors of 60_exceptions.md R240, each with what it records (R241–R243). The spec
describes what a fatal error does to the state (R246), so the machine TAKES it: the step answers a
next state whose status is `Halted(e)` and whose result is `Err(e)` (log 3). No step ends in
`Host.Outcome.fault`. -/
inductive Fault where
  /-- Code 2, `MemoryFault{pc, addr}`: raised by the fetch, Dxyn, Fx33, Fx55 and Fx65 on an address
  of 4096 or more (R241). Recorded in the status and the result, never an outcome of its own.
  Unsafe only in what a halted state holds besides the error (log 3, log 16). -/
  | memoryFault (pc : Word) (addr : Nat)
  /-- Code 3, `StackOverflow{pc}`: raised by 2nnn with 16 entries on the stack (R242). Recorded in
  the status and the result, never an outcome of its own. Unsafe as above (log 3). -/
  | stackOverflow (pc : Word)
  /-- Code 4, `StackUnderflow{pc}`: raised by 00EE with an empty stack (R243). Recorded in the
  status and the result, never an outcome of its own. Unsafe as above (log 3). -/
  | stackUnderflow (pc : Word)
  deriving DecidableEq, Repr

/-- Why the model declines to go on. No step of the machine is refused: every row of the opcode map
has its meaning. The two reasons after the first are host calls outside the contract (log 17). -/
inductive Refusal where
  /-- An instruction with no meaning yet, by its mnemonic. Raised by no arm. Safe. -/
  | notModelled (mnemonic : String)
  /-- The host called `load` after the first step (70_reset_and_hazards.md R284: "a model refuses
  it"). Raised by `hostLoad`. Safe. -/
  | loadAfterStart
  /-- The host called `set_key` with a value that is neither none nor 0–15 (60_exceptions.md R255:
  "a model refuses it"). Raised by `hostSetKey`. Safe. -/
  | keyOutOfRange (value : Nat)
  deriving DecidableEq, Repr

/-- The run status (10_state.md R40). -/
inductive RunStatus where
  | running
  | halted (e : Fault)
  deriving DecidableEq, Repr

/-- What a step returns to the host (60_exceptions.md R254). -/
inductive StepResult where
  /-- `Ok`: one instruction ran. -/
  | ok
  /-- `Warn(UnknownOpcode{pc, word})`: one unmapped word ran as a no-op. -/
  | warn (pc word : Word)
  /-- `Err(e)`: a fatal error, or a VM already halted with `e`. -/
  | err (e : Fault)
  deriving DecidableEq, Repr

/-- The memory `M` (10_state.md R39): the cells whose byte differs from the constructed content, by
strictly rising address (log 18). `Memory.get` and `Memory.set` of Machine/Memory.lean read and
write it. -/
abbrev Memory := List Host.Cell

/-- The framebuffer `FB` (10_state.md R37): 32 rows of 64 booleans. `Framebuffer.pixel` of
Machine/Framebuffer.lean reads `FB[c][r]`. -/
abbrev Framebuffer := Vector (Vector Bool 64) 32

/-- Every piece of state the spec gives the machine (10_state.md R30–R41), and three fields that are
the model's own: `result`, `rngDraws` and `keyDraws`. -/
structure State where
  /-- `V[0]` to `V[15]`; `V[15]` is VF (R30, R31). -/
  v : Vector Byte 16
  /-- The index register (R32). -/
  i : Word
  /-- The program counter (R33). -/
  pc : Word
  /-- The call stack, oldest entry first; the last entry is the top (R34, log 21). -/
  stack : List Word
  /-- The delay timer (R35). -/
  dt : Byte
  /-- The sound timer (R36). -/
  st : Byte
  /-- The framebuffer (R37). -/
  fb : Framebuffer
  /-- The current-key latch (R38). -/
  key : Option KeyIx
  /-- The memory (R39). -/
  mem : Memory
  /-- The run status (R40). -/
  status : RunStatus
  /-- Set by the first step; decides whether `load` is still accepted (R40). -/
  started : Bool
  /-- The model's own: what the last step returned (60_exceptions.md R254, log 5). -/
  result : Option StepResult
  /-- The model's own: how many random bytes were drawn so far (60_exceptions.md R258, log 6). -/
  rngDraws : Nat
  /-- The model's own: how many `KeyNoneValue` bytes were drawn so far (45_timer_input.md R222,
  log 7). -/
  keyDraws : Nat
  deriving DecidableEq, Repr

/-- The state right after construction (R42, 70_reset_and_hazards.md R280). The source states PC and
the memory; the spec decides the registers, timers, framebuffer and key (D4, log 1). -/
def State.reset : State where
  v := Vector.replicate 16 0
  i := 0
  pc := 0x200
  stack := []
  dt := 0
  st := 0
  fb := Vector.replicate 32 (Vector.replicate 64 false)
  key := none
  mem := []
  status := .running
  started := false
  result := none
  rngDraws := 0
  keyDraws := 0

end Sys2Proof.Machine
end

