-- ==== Sys2Proof/Machine/Operands.lean ====
section
/-! DEFINITION. Operand forms: the general registers, the effective address `I + k`, the key
comparison, and the values computed from an operand alone (30_encoding.md R82). -/

namespace Sys2Proof.Machine

/-- `V[x]` (10_state.md R30). -/
def State.reg (s : State) (x : RegIx) : Byte := s.v[x.val]

/-- `V[x] <- b` (10_state.md R30). -/
def State.setReg (s : State) (x : RegIx) (b : Byte) : State := { s with v := s.v.set x.val b }

/-- The registers `V[0]` to `V[x]`, in that order: what Fx55 stores (43_index_memory.md R185). -/
def State.regsUpTo (s : State) (x : RegIx) : List Byte := s.v.toList.take (x.val + 1)

/-- A register file with bytes put into the registers from number `i` on (43_index_memory.md R186). -/
def writeRegs (v : Vector Byte 16) : Nat → List Byte → Vector Byte 16
  | _, [] => v
  | i, b :: bs => writeRegs (v.setIfInBounds i b) (i + 1) bs

/-- The registers from `V[0]` on take the bytes, in that order: what Fx65 loads
(43_index_memory.md R186). -/
def State.loadRegs (s : State) (bs : List Byte) : State := { s with v := writeRegs s.v 0 bs }

/-- The effective address of offset `k`: the exact integer `I + k`, never wrapped (20_memory.md R64,
43_index_memory.md R180; log 12). -/
def State.effAddr (s : State) (k : Nat) : Nat := s.i.toNat + k

/-- `Key ≠ none and Key = b` (41_conditional_skip.md R135; log 11): no key equals no byte, and a key
equals only its own number. -/
def State.keyIs (s : State) (b : Byte) : Bool :=
  match s.key with
  | none => false
  | some k => k.val = b.toNat

/-- The target of Bnnn: `nnn + V[0]` (40_control_flow.md R113). -/
def State.jumpOffset (s : State) (nnn : Word) : Word := nnn + (s.reg 0).setWidth 16

/-- The three decimal digits, hundreds first (43_index_memory.md R184). -/
def bcdDigits (b : Byte) : List Byte :=
  [BitVec.ofNat 8 (b.toNat / 100), BitVec.ofNat 8 (b.toNat / 10 % 10), BitVec.ofNat 8 (b.toNat % 10)]

/-- The offset of a glyph from the start of the font table (43_index_memory.md R183; log 14). -/
def glyphOffset (b : Byte) : Word := BitVec.ofNat 16 (b.toNat * 5)

end Sys2Proof.Machine
end

