-- ==== Sys2Proof/Machine/Flags.lean ====
section
/-! DEFINITION. The flag register VF: the values the arithmetic, the shifts and the draw give it, and
the order in which a result and its flag are written (42_register_alu.md R150, log 9). -/

namespace Sys2Proof.Machine

/-- A flag as the byte that VF holds: 1 or 0. -/
def flagByte (b : Bool) : Byte := if b then 1 else 0

/-- The carry of 8xy4: 1 if the exact sum is above 255 (42_register_alu.md R157). -/
def carryFlag (a b : Byte) : Byte := flagByte (255 < a.toNat + b.toNat)

/-- The flag of 8xy5 and 8xy7: 1 if the minuend is strictly greater (42_register_alu.md R158, R160). -/
def greaterFlag (a b : Byte) : Byte := flagByte (b.toNat < a.toNat)

/-- The flag of 8xy6: the old bit 0 (42_register_alu.md R159). -/
def lowBitFlag (a : Byte) : Byte := a &&& 1

/-- The flag of 8xyE: the old bit 7 (42_register_alu.md R161). -/
def highBitFlag (a : Byte) : Byte := (a >>> 7) &&& 1

/-- `VF <- f` (10_state.md R31). -/
def State.setFlag (s : State) (f : Byte) : State := s.setReg Config.flagReg f

/-- `V[x] <- r`, then `VF <- f`: the flag is written last (42_register_alu.md R150). -/
def State.setResultFlag (s : State) (x : RegIx) (r f : Byte) : State := (s.setReg x r).setFlag f

end Sys2Proof.Machine
end

