-- ==== Sys2Proof/Machine/Framebuffer.lean ====
section
/-! DEFINITION. The framebuffer and the sprite-blit unit (10_state.md R37, 44_display.md R201). -/

namespace Sys2Proof.Machine

/-- Every pixel false (44_display.md R200). -/
def Framebuffer.clear : Framebuffer := Vector.replicate 32 (Vector.replicate 64 false)

/-- `FB[c][q]`: the pixel at column `c` and row `q` (10_state.md R37, log 22). -/
def Framebuffer.pixel (fb : Framebuffer) (c : Col) (q : Row) : Bool := fb[q.val][c.val]

/-- `FB[c][q] <- b`. -/
def Framebuffer.setPixel (fb : Framebuffer) (c : Col) (q : Row) (b : Bool) : Framebuffer :=
  fb.set q.val (fb[q.val].set c.val b)

/-- The column of a number: reduced mod 64 (R201). -/
def wrapCol (k : Nat) : Col := Fin.ofNat 64 k

/-- The row of a number: reduced mod 32 (R201). -/
def wrapRow (k : Nat) : Row := Fin.ofNat 32 k

/-- The framebuffer and the collision found so far while a sprite is drawn (R201 `coll`). -/
structure Blit where
  fb : Framebuffer
  coll : Bool
  deriving DecidableEq, Repr

/-- One sprite bit that is 1: a pixel already set is a collision; XOR-toggle the pixel (R201). -/
def Blit.toggle (p : Blit) (c : Col) (q : Row) : Blit :=
  { fb := p.fb.setPixel c q (!p.fb.pixel c q), coll := p.fb.pixel c q || p.coll }

/-- The bits of one sprite row from bit offset `b` on, `left` of them, most significant first: the
pixel of offset `b` is at column `(ox + b) mod 64` (R201). -/
def Blit.rowBits (bits : Byte) (ox : Nat) (q : Row) : Nat → Nat → Blit → Blit
  | _, 0, p => p
  | b, left + 1, p =>
    Blit.rowBits bits ox q (b + 1) left
      (if bits.getLsbD (7 - b) then p.toggle (wrapCol (ox + b)) q else p)

/-- The rows of a sprite from row offset `r` on: row `r` is at `(oy + r) mod 32` (R201). -/
def Blit.rows (ox oy : Nat) : Nat → List Byte → Blit → Blit
  | _, [], p => p
  | r, bits :: rest, p =>
    Blit.rows ox oy (r + 1) rest (Blit.rowBits bits ox (wrapRow (oy + r)) 0 8 p)

/-- Draw a sprite with its origin at column `ox mod 64`, row `oy mod 32` (R201). -/
def drawSprite (fb : Framebuffer) (ox oy : Nat) (sprite : List Byte) : Blit :=
  Blit.rows (ox % Config.screenW) (oy % Config.screenH) 0 sprite { fb := fb, coll := false }

end Sys2Proof.Machine
end

