-- ==== Sys2Proof/Syntax.lean ====
section
/-! DEFINITION. The instructions: one constructor per row of spec/opcode_table.json, in the order of
30_encoding.md R83. Operands are as R82 gives them: `nnn` is the 12-bit immediate already widened to
a 16-bit address, `kk` a byte, `n` a count of rows, `x` and `y` register numbers (log 24). -/

namespace Sys2Proof

/-- An instruction of the opcode map (R83). -/
inductive Instr where
  /-- 00E0 CLS: clear the framebuffer (44_display.md R200). -/
  | cls
  /-- 00EE RET: return (40_control_flow.md R111). -/
  | ret
  /-- 1nnn JP: jump (40_control_flow.md R112). -/
  | jp (nnn : Word)
  /-- Bnnn JP_V0: jump to nnn + V[0] (40_control_flow.md R113). -/
  | jpV0 (nnn : Word)
  /-- 2nnn CALL: call (40_control_flow.md R114). -/
  | call (nnn : Word)
  /-- 3xkk SE_Vx_kk: skip if V[x] = kk (41_conditional_skip.md R131). -/
  | seVxKk (x : RegIx) (kk : Byte)
  /-- 4xkk SNE_Vx_kk: skip if V[x] ≠ kk (41_conditional_skip.md R132). -/
  | sneVxKk (x : RegIx) (kk : Byte)
  /-- 5xy0 SE_Vx_Vy: skip if V[x] = V[y] (41_conditional_skip.md R133). -/
  | seVxVy (x y : RegIx)
  /-- 9xy0 SNE_Vx_Vy: skip if V[x] ≠ V[y] (41_conditional_skip.md R134). -/
  | sneVxVy (x y : RegIx)
  /-- 6xkk LD_Vx_kk: V[x] = kk (42_register_alu.md R151). -/
  | ldVxKk (x : RegIx) (kk : Byte)
  /-- 7xkk ADD_Vx_kk: V[x] += kk, no flag (42_register_alu.md R152). -/
  | addVxKk (x : RegIx) (kk : Byte)
  /-- 8xy0 LD_Vx_Vy: V[x] = V[y] (42_register_alu.md R153). -/
  | ldVxVy (x y : RegIx)
  /-- 8xy1 OR (42_register_alu.md R154). -/
  | orVxVy (x y : RegIx)
  /-- 8xy2 AND (42_register_alu.md R155). -/
  | andVxVy (x y : RegIx)
  /-- 8xy3 XOR (42_register_alu.md R156). -/
  | xorVxVy (x y : RegIx)
  /-- 8xy4 ADD_Vx_Vy: add, VF = carry (42_register_alu.md R157). -/
  | addVxVy (x y : RegIx)
  /-- 8xy5 SUB: V[x] − V[y], VF = (V[x] > V[y]) (42_register_alu.md R158). -/
  | sub (x y : RegIx)
  /-- 8xy6 SHR: shift right, VF = old bit 0; `y` is encoded, not read (42_register_alu.md R159). -/
  | shr (x y : RegIx)
  /-- 8xy7 SUBN: V[y] − V[x], VF = (V[y] > V[x]) (42_register_alu.md R160). -/
  | subn (x y : RegIx)
  /-- 8xyE SHL: shift left, VF = old bit 7; `y` is encoded, not read (42_register_alu.md R161). -/
  | shl (x y : RegIx)
  /-- Annn LD_I_nnn: I = nnn (43_index_memory.md R181). -/
  | ldINnn (nnn : Word)
  /-- Cxkk RND: V[x] = random byte AND kk (42_register_alu.md R162). -/
  | rnd (x : RegIx) (kk : Byte)
  /-- Dxyn DRW: draw a sprite of n rows (44_display.md R201). -/
  | drw (x y : RegIx) (n : Nat)
  /-- Ex9E SKP: skip if Key = V[x] (41_conditional_skip.md R135). -/
  | skp (x : RegIx)
  /-- ExA1 SKNP: skip if Key ≠ V[x] (41_conditional_skip.md R136). -/
  | sknp (x : RegIx)
  /-- Fx07 LD_Vx_DT: V[x] = DT (45_timer_input.md R221). -/
  | ldVxDt (x : RegIx)
  /-- Fx0A LD_Vx_K: V[x] = Key, no wait (45_timer_input.md R222). -/
  | ldVxK (x : RegIx)
  /-- Fx15 LD_DT_Vx: DT = V[x] (45_timer_input.md R223). -/
  | ldDtVx (x : RegIx)
  /-- Fx18 LD_ST_Vx: ST = V[x] (45_timer_input.md R224). -/
  | ldStVx (x : RegIx)
  /-- Fx1E ADD_I_Vx: I += V[x], no flag (43_index_memory.md R182). -/
  | addIVx (x : RegIx)
  /-- Fx29 LD_F_Vx: I = V[x] * 5 (43_index_memory.md R183). -/
  | ldFVx (x : RegIx)
  /-- Fx33 LD_B_Vx: BCD of V[x] to M[I..I+2] (43_index_memory.md R184). -/
  | ldBVx (x : RegIx)
  /-- Fx55 LD_mI_Vx: store V[0..x] at I, then I += x + 1 (43_index_memory.md R185). -/
  | ldMIVx (x : RegIx)
  /-- Fx65 LD_Vx_mI: load V[0..x] from I, then I += x + 1 (43_index_memory.md R186). -/
  | ldVxMI (x : RegIx)
  deriving DecidableEq, Repr

/-- What decoding a word answers (30_encoding.md R84): an instruction, or `Unknown(w)`. -/
inductive Decoded where
  /-- The word is in a row of R83. -/
  | insn (i : Instr)
  /-- The word is in no row: an unmapped sub-opcode (R85). -/
  | unknown (w : Word)
  deriving DecidableEq, Repr

/-- Why a sequence of bytes gives no instruction. -/
inductive DecodeReject where
  /-- Fewer than the two bytes of a word (R80). -/
  | truncated (length : Nat)
  /-- The word is `Unknown` (R85). -/
  | unknownOpcode (w : Word)
  deriving DecidableEq, Repr

end Sys2Proof
end

