-- ==== Sys2Proof/WellFormed.lean ====
section
/-! DEFINITION. Which terms of `Instr` an instruction word can hold: the operand ranges of
30_encoding.md R81 and R82. -/

namespace Sys2Proof

/-- The operand `nnn` fits its 12 bits (R81). -/
def addressFits (nnn : Word) : Bool := nnn.toNat < 0x1000

/-- The row count `n` fits its 4 bits (R81). -/
def heightFits (n : Nat) : Bool := n < 16

/-- The check of an instruction's operands. Registers and bytes fit by their types. -/
def Instr.wellFormed : Instr → Bool
  | .cls => true
  | .ret => true
  | .jp nnn => addressFits nnn
  | .jpV0 nnn => addressFits nnn
  | .call nnn => addressFits nnn
  | .seVxKk _ _ => true
  | .sneVxKk _ _ => true
  | .seVxVy _ _ => true
  | .sneVxVy _ _ => true
  | .ldVxKk _ _ => true
  | .addVxKk _ _ => true
  | .ldVxVy _ _ => true
  | .orVxVy _ _ => true
  | .andVxVy _ _ => true
  | .xorVxVy _ _ => true
  | .addVxVy _ _ => true
  | .sub _ _ => true
  | .shr _ _ => true
  | .subn _ _ => true
  | .shl _ _ => true
  | .ldINnn nnn => addressFits nnn
  | .rnd _ _ => true
  | .drw _ _ n => heightFits n
  | .skp _ => true
  | .sknp _ => true
  | .ldVxDt _ => true
  | .ldVxK _ => true
  | .ldDtVx _ => true
  | .ldStVx _ => true
  | .addIVx _ => true
  | .ldFVx _ => true
  | .ldBVx _ => true
  | .ldMIVx _ => true
  | .ldVxMI _ => true

/-- The instruction is one that some word encodes. -/
abbrev Instr.WellFormed (i : Instr) : Prop := i.wellFormed = true

end Sys2Proof
end

