-- ==== Sys2Proof/Decode.lean ====
section
/-! DEFINITION. The instruction word, its fields, decode and encode (30_encoding.md R80–R86, R90). -/

namespace Sys2Proof

/-- The field of `len` bits of `w` from bit `lo` up, as a number (00_scope.md R6). -/
def bitField (w : Word) (lo len : Nat) : Nat := (w.extractLsb' lo len).toNat

/-- The opcode family `w[15:12]` (R81). -/
def fieldFamily (w : Word) : Nat := bitField w 12 4

/-- `x = w[11:8]` (R81). -/
def fieldX (w : Word) : RegIx := Fin.ofNat 16 (bitField w 8 4)

/-- `y = w[7:4]` (R81). -/
def fieldY (w : Word) : RegIx := Fin.ofNat 16 (bitField w 4 4)

/-- `n = w[3:0]` (R81). -/
def fieldN (w : Word) : Nat := bitField w 0 4

/-- `kk = w[7:0]` (R81). -/
def fieldKk (w : Word) : Byte := w.extractLsb' 0 8

/-- `nnn = w[11:0]`, widened to 16 bits with zeros (R81, R82). -/
def fieldNnn (w : Word) : Word := (w.extractLsb' 0 12).setWidth 16

/-- The low byte `w[7:0]` as the sub-opcode of the families E and F (R81). -/
def fieldLow (w : Word) : Nat := bitField w 0 8

/-- Family 0 tells 00E0 from 00EE by the whole word (R90). DESIGN CHOICE (the spec's D3; unsafe,
log 10): every literal digit is compared, here and in the families 5, 8, 9, E and F. -/
def decodeFamily0 (w : Word) : Decoded :=
  match w.toNat with
  | 0x00E0 => .insn .cls
  | 0x00EE => .insn .ret
  | _ => .unknown w

/-- Family 5 checks the low nibble for 0 (R90). -/
def decodeFamily5 (w : Word) : Decoded :=
  match fieldN w with
  | 0x0 => .insn (.seVxVy (fieldX w) (fieldY w))
  | _ => .unknown w

/-- Family 8 selects by the low nibble (R90). -/
def decodeFamily8 (w : Word) : Decoded :=
  match fieldN w with
  | 0x0 => .insn (.ldVxVy (fieldX w) (fieldY w))
  | 0x1 => .insn (.orVxVy (fieldX w) (fieldY w))
  | 0x2 => .insn (.andVxVy (fieldX w) (fieldY w))
  | 0x3 => .insn (.xorVxVy (fieldX w) (fieldY w))
  | 0x4 => .insn (.addVxVy (fieldX w) (fieldY w))
  | 0x5 => .insn (.sub (fieldX w) (fieldY w))
  | 0x6 => .insn (.shr (fieldX w) (fieldY w))
  | 0x7 => .insn (.subn (fieldX w) (fieldY w))
  | 0xE => .insn (.shl (fieldX w) (fieldY w))
  | _ => .unknown w

/-- Family 9 checks the low nibble for 0 (R90). -/
def decodeFamily9 (w : Word) : Decoded :=
  match fieldN w with
  | 0x0 => .insn (.sneVxVy (fieldX w) (fieldY w))
  | _ => .unknown w

/-- Family E selects by the low byte (R90). -/
def decodeFamilyE (w : Word) : Decoded :=
  match fieldLow w with
  | 0x9E => .insn (.skp (fieldX w))
  | 0xA1 => .insn (.sknp (fieldX w))
  | _ => .unknown w

/-- Family F selects by the low byte (R90). -/
def decodeFamilyF (w : Word) : Decoded :=
  match fieldLow w with
  | 0x07 => .insn (.ldVxDt (fieldX w))
  | 0x0A => .insn (.ldVxK (fieldX w))
  | 0x15 => .insn (.ldDtVx (fieldX w))
  | 0x18 => .insn (.ldStVx (fieldX w))
  | 0x1E => .insn (.addIVx (fieldX w))
  | 0x29 => .insn (.ldFVx (fieldX w))
  | 0x33 => .insn (.ldBVx (fieldX w))
  | 0x55 => .insn (.ldMIVx (fieldX w))
  | 0x65 => .insn (.ldVxMI (fieldX w))
  | _ => .unknown w

/-- Decode the top 4 bits as the family and dispatch to the family's handler (R84, R90). The last
arm is never reached: the families are the 16 values of 4 bits. -/
def decode (w : Word) : Decoded :=
  match fieldFamily w with
  | 0x0 => decodeFamily0 w
  | 0x1 => .insn (.jp (fieldNnn w))
  | 0x2 => .insn (.call (fieldNnn w))
  | 0x3 => .insn (.seVxKk (fieldX w) (fieldKk w))
  | 0x4 => .insn (.sneVxKk (fieldX w) (fieldKk w))
  | 0x5 => decodeFamily5 w
  | 0x6 => .insn (.ldVxKk (fieldX w) (fieldKk w))
  | 0x7 => .insn (.addVxKk (fieldX w) (fieldKk w))
  | 0x8 => decodeFamily8 w
  | 0x9 => decodeFamily9 w
  | 0xA => .insn (.ldINnn (fieldNnn w))
  | 0xB => .insn (.jpV0 (fieldNnn w))
  | 0xC => .insn (.rnd (fieldX w) (fieldKk w))
  | 0xD => .insn (.drw (fieldX w) (fieldY w) (fieldN w))
  | 0xE => decodeFamilyE w
  | 0xF => decodeFamilyF w
  | _ => .unknown w

/-- The word of two bytes: the byte at the lower address is the high one (R80, 20_memory.md R63). -/
def composeWord (hi lo : Byte) : Word := (hi.setWidth 16 <<< 8) ||| lo.setWidth 16

/-- The byte of a word that lies at the lower address (R80). -/
def highByte (w : Word) : Byte := w.extractLsb' 8 8

/-- The byte of a word that lies at the higher address (R80). -/
def lowByte (w : Word) : Byte := w.extractLsb' 0 8

/-- Decode the first instruction of any bytes: the instruction and the bytes after it, or the name
of the reason there is none. -/
def decodeBytes : List Byte → Except DecodeReject (Instr × List Byte)
  | hi :: lo :: rest =>
    match decode (composeWord hi lo) with
    | .insn i => .ok (i, rest)
    | .unknown w => .error (.unknownOpcode w)
  | bs => .error (.truncated bs.length)

/-- The opcode map of R83 as data: match value, mask, and the instruction with the fields of `w`.
`decode` must be the same function as a search of these rows (R84, R90). -/
structure OpcodeRow where
  pat : Word
  mask : Word
  build : Word → Instr

/-- The rows 1 to 20 of R83. -/
def opcodeRows1To20 : List OpcodeRow :=
  [⟨0x00E0, 0xFFFF, fun _ => .cls⟩,
   ⟨0x00EE, 0xFFFF, fun _ => .ret⟩,
   ⟨0x1000, 0xF000, fun w => .jp (fieldNnn w)⟩,
   ⟨0xB000, 0xF000, fun w => .jpV0 (fieldNnn w)⟩,
   ⟨0x2000, 0xF000, fun w => .call (fieldNnn w)⟩,
   ⟨0x3000, 0xF000, fun w => .seVxKk (fieldX w) (fieldKk w)⟩,
   ⟨0x4000, 0xF000, fun w => .sneVxKk (fieldX w) (fieldKk w)⟩,
   ⟨0x5000, 0xF00F, fun w => .seVxVy (fieldX w) (fieldY w)⟩,
   ⟨0x9000, 0xF00F, fun w => .sneVxVy (fieldX w) (fieldY w)⟩,
   ⟨0x6000, 0xF000, fun w => .ldVxKk (fieldX w) (fieldKk w)⟩] ++
  [⟨0x7000, 0xF000, fun w => .addVxKk (fieldX w) (fieldKk w)⟩,
   ⟨0x8000, 0xF00F, fun w => .ldVxVy (fieldX w) (fieldY w)⟩,
   ⟨0x8001, 0xF00F, fun w => .orVxVy (fieldX w) (fieldY w)⟩,
   ⟨0x8002, 0xF00F, fun w => .andVxVy (fieldX w) (fieldY w)⟩,
   ⟨0x8003, 0xF00F, fun w => .xorVxVy (fieldX w) (fieldY w)⟩,
   ⟨0x8004, 0xF00F, fun w => .addVxVy (fieldX w) (fieldY w)⟩,
   ⟨0x8005, 0xF00F, fun w => .sub (fieldX w) (fieldY w)⟩,
   ⟨0x8006, 0xF00F, fun w => .shr (fieldX w) (fieldY w)⟩,
   ⟨0x8007, 0xF00F, fun w => .subn (fieldX w) (fieldY w)⟩,
   ⟨0x800E, 0xF00F, fun w => .shl (fieldX w) (fieldY w)⟩]

/-- The rows 21 to 34 of R83. -/
def opcodeRows21To34 : List OpcodeRow :=
  [⟨0xA000, 0xF000, fun w => .ldINnn (fieldNnn w)⟩,
   ⟨0xC000, 0xF000, fun w => .rnd (fieldX w) (fieldKk w)⟩,
   ⟨0xD000, 0xF000, fun w => .drw (fieldX w) (fieldY w) (fieldN w)⟩,
   ⟨0xE09E, 0xF0FF, fun w => .skp (fieldX w)⟩,
   ⟨0xE0A1, 0xF0FF, fun w => .sknp (fieldX w)⟩,
   ⟨0xF007, 0xF0FF, fun w => .ldVxDt (fieldX w)⟩,
   ⟨0xF00A, 0xF0FF, fun w => .ldVxK (fieldX w)⟩] ++
  [⟨0xF015, 0xF0FF, fun w => .ldDtVx (fieldX w)⟩,
   ⟨0xF018, 0xF0FF, fun w => .ldStVx (fieldX w)⟩,
   ⟨0xF01E, 0xF0FF, fun w => .addIVx (fieldX w)⟩,
   ⟨0xF029, 0xF0FF, fun w => .ldFVx (fieldX w)⟩,
   ⟨0xF033, 0xF0FF, fun w => .ldBVx (fieldX w)⟩,
   ⟨0xF055, 0xF0FF, fun w => .ldMIVx (fieldX w)⟩,
   ⟨0xF065, 0xF0FF, fun w => .ldVxMI (fieldX w)⟩]

/-- The 34 rows of R83, in its order. -/
def opcodeTable : List OpcodeRow := opcodeRows1To20 ++ opcodeRows21To34

/-- The word is the instruction in the row: `(w & mask) = match` (R83). -/
def OpcodeRow.covers (r : OpcodeRow) (w : Word) : Bool := w &&& r.mask = r.pat

/-- A word of four hex digits, the family first (R80, R81). -/
def wordOfDigits (f x y n : Nat) : Word := BitVec.ofNat 16 (f * 0x1000 + x * 0x100 + y * 0x10 + n)

/-- A word of a family and `nnn` (R81, format F-nnn). -/
def wordFNnn (f : Nat) (nnn : Word) : Word := BitVec.ofNat 16 (f * 0x1000 + nnn.toNat)

/-- A word of a family, `x` and `kk` (R81, format F-x-kk). -/
def wordFXKk (f : Nat) (x : RegIx) (kk : Nat) : Word := BitVec.ofNat 16 (f * 0x1000 + x.val * 0x100 + kk)

/-- A word of a family, `x`, `y` and `n` (R81, format F-x-y-n). -/
def wordFXYN (f : Nat) (x y : RegIx) (n : Nat) : Word := wordOfDigits f x.val y.val n

/-- The word of an instruction (R81, R83). -/
def encode : Instr → Word
  | .cls => 0x00E0
  | .ret => 0x00EE
  | .jp nnn => wordFNnn 0x1 nnn
  | .jpV0 nnn => wordFNnn 0xB nnn
  | .call nnn => wordFNnn 0x2 nnn
  | .seVxKk x kk => wordFXKk 0x3 x kk.toNat
  | .sneVxKk x kk => wordFXKk 0x4 x kk.toNat
  | .seVxVy x y => wordFXYN 0x5 x y 0x0
  | .sneVxVy x y => wordFXYN 0x9 x y 0x0
  | .ldVxKk x kk => wordFXKk 0x6 x kk.toNat
  | .addVxKk x kk => wordFXKk 0x7 x kk.toNat
  | .ldVxVy x y => wordFXYN 0x8 x y 0x0
  | .orVxVy x y => wordFXYN 0x8 x y 0x1
  | .andVxVy x y => wordFXYN 0x8 x y 0x2
  | .xorVxVy x y => wordFXYN 0x8 x y 0x3
  | .addVxVy x y => wordFXYN 0x8 x y 0x4
  | .sub x y => wordFXYN 0x8 x y 0x5
  | .shr x y => wordFXYN 0x8 x y 0x6
  | .subn x y => wordFXYN 0x8 x y 0x7
  | .shl x y => wordFXYN 0x8 x y 0xE
  | .ldINnn nnn => wordFNnn 0xA nnn
  | .rnd x kk => wordFXKk 0xC x kk.toNat
  | .drw x y n => wordFXYN 0xD x y n
  | .skp x => wordFXKk 0xE x 0x9E
  | .sknp x => wordFXKk 0xE x 0xA1
  | .ldVxDt x => wordFXKk 0xF x 0x07
  | .ldVxK x => wordFXKk 0xF x 0x0A
  | .ldDtVx x => wordFXKk 0xF x 0x15
  | .ldStVx x => wordFXKk 0xF x 0x18
  | .addIVx x => wordFXKk 0xF x 0x1E
  | .ldFVx x => wordFXKk 0xF x 0x29
  | .ldBVx x => wordFXKk 0xF x 0x33
  | .ldMIVx x => wordFXKk 0xF x 0x55
  | .ldVxMI x => wordFXKk 0xF x 0x65

/-- The two bytes of an instruction, the high byte first (R80). -/
def encodeBytes (i : Instr) : List Byte := [highByte (encode i), lowByte (encode i)]

/-- The instruction word of a row of the opcode table: its `nbits` bits are `w`, the rest are 0. -/
def tableWord (nbits w : Nat) : Word := BitVec.ofNat 16 (w % 2 ^ nbits)

/-- The host's question: what the decoder reads from the bytes of the word `w`, laid out as the
hardware stores them. -/
def decodeTableWord (nbits w : Nat) : Option Instr :=
  match decodeBytes [highByte (tableWord nbits w), lowByte (tableWord nbits w)] with
  | .ok (i, _) => some i
  | .error _ => none

end Sys2Proof
end

