-- ==== Sys2Proof/Machine/Font.lean ====
section
/-! DEFINITION. The parameter `FONT`: the 80 bytes of the system font (20_memory.md R69). -/

namespace Sys2Proof.Config

/-- Glyphs 0 to 7. Glyph 0 is the source's own (R69, §8). PRESUMED (unsafe, log 2): glyphs 1 to 7
are the default the spec takes from general knowledge of the CHIP-8 family (93 U18, G1). -/
def fontGlyphs0To7 : List Byte :=
  [0xF0, 0x90, 0x90, 0x90, 0xF0] ++
  [0x20, 0x60, 0x20, 0x20, 0x70] ++
  [0xF0, 0x10, 0xF0, 0x80, 0xF0] ++
  [0xF0, 0x10, 0xF0, 0x10, 0xF0] ++
  [0x90, 0x90, 0xF0, 0x10, 0x10] ++
  [0xF0, 0x80, 0xF0, 0x10, 0xF0] ++
  [0xF0, 0x80, 0xF0, 0x90, 0xF0] ++
  [0xF0, 0x10, 0x20, 0x40, 0x40]

/-- Glyphs 8 to F. PRESUMED (unsafe, log 2), as the glyphs 1 to 7. -/
def fontGlyphs8ToF : List Byte :=
  [0xF0, 0x90, 0xF0, 0x90, 0xF0] ++
  [0xF0, 0x90, 0xF0, 0x10, 0xF0] ++
  [0xF0, 0x90, 0xF0, 0x90, 0x90] ++
  [0xE0, 0x90, 0xE0, 0x90, 0xE0] ++
  [0xF0, 0x80, 0x80, 0x80, 0xF0] ++
  [0xE0, 0x90, 0x90, 0x90, 0xE0] ++
  [0xF0, 0x80, 0xF0, 0x80, 0xF0] ++
  [0xF0, 0x80, 0xF0, 0x80, 0x80]

/-- `FONT`: the 80 bytes at 0x050 to 0x09F after construction (R69). -/
def font : List Byte := fontGlyphs0To7 ++ fontGlyphs8ToF

end Sys2Proof.Config
end

