-- ==== Sys2Proof/Machine/Memory.lean ====
section
/-! DEFINITION. The address space (20_memory.md): the constructed content, the canonical form, the
byte accesses, the fetch, and runs of bytes. -/

namespace Sys2Proof.Machine

/-- What an address that the memory does not list reads as: the content after construction
(20_memory.md R68, R69): the font at 0x050 to 0x09F, zero elsewhere (log 18). -/
def Memory.background (a : Nat) : Byte :=
  if Config.fontBase ≤ a ∧ a < Config.fontBase + Config.fontBytes then
    Config.font.getD (a - Config.fontBase) 0
  else 0

/-- The byte at an address (R60, R71). -/
def Memory.get : Memory → Nat → Byte
  | [], a => Memory.background a
  | (b, u) :: m, a => if b = a then u else Memory.get m a

/-- Put a cell in front of a memory, unless its byte is the one an unlisted address reads as. -/
def Memory.cons (a : Nat) (u : Byte) (m : Memory) : Memory :=
  if u = Memory.background a then m else (a, u) :: m

/-- Write the byte at an address; the canonical form is kept (R62, log 18). -/
def Memory.set : Memory → Nat → Byte → Memory
  | [], a, u => Memory.cons a u []
  | (b, w) :: m, a, u =>
    if a < b then Memory.cons a u ((b, w) :: m)
    else if a = b then Memory.cons a u m
    else (b, w) :: Memory.set m a u

/-- Every listed cell from address `lo` on: rising addresses below 4096, no byte equal to what the
unlisted address reads as. -/
def Memory.wfFrom : Nat → Memory → Bool
  | _, [] => true
  | lo, (a, u) :: m =>
    decide (lo ≤ a) && decide (a < Config.memSize) && decide (u ≠ Memory.background a) &&
      Memory.wfFrom (a + 1) m

/-- The canonical form: strictly rising addresses of the address space, no entry equal to what an
unlisted address reads as. -/
def Memory.wf (m : Memory) : Bool := Memory.wfFrom 0 m

/-- `MemRead(addr, 1)` (R61): the byte, or the address that is out of range. -/
def memRead (m : Memory) (a : Nat) : Except Nat Byte :=
  if Config.memSize ≤ a then .error a else .ok (m.get a)

/-- `MemWrite(addr, 1, v)` (R62): the memory after it, or the address that is out of range. -/
def memWrite (m : Memory) (a : Nat) (u : Byte) : Except Nat Memory :=
  if Config.memSize ≤ a then .error a else .ok (m.set a u)

/-- `Fetch16(addr)` (R63): the big-endian word, or the address fetched from (log 16). -/
def fetch16 (m : Memory) (a : Nat) : Except Nat Word :=
  if Config.memSize ≤ a + 1 then .error a else .ok (composeWord (m.get a) (m.get (a + 1)))

/-- `count` reads of R61 at rising addresses from `a`, in that order; the first address out of range
ends them. -/
def readBytes (m : Memory) : Nat → Nat → Except Nat (List Byte)
  | _, 0 => .ok []
  | a, count + 1 =>
    match memRead m a with
    | .error e => .error e
    | .ok u =>
      match readBytes m (a + 1) count with
      | .error e => .error e
      | .ok us => .ok (u :: us)

/-- Writes of R62 at rising addresses from `a`, in that order; the first address out of range ends
them and none of them is kept (R75). -/
def writeBytes : Memory → Nat → List Byte → Except Nat Memory
  | m, _, [] => .ok m
  | m, a, u :: us =>
    match memWrite m a u with
    | .error e => .error e
    | .ok m' => writeBytes m' (a + 1) us

end Sys2Proof.Machine
end

