-- ==== Sys2Proof/Machine/Ops.lean ====
section
/-! DEFINITION. The named operations the meanings are made of: writes of one field, the call stack,
the program counter, taking a fatal error, the timer unit, the free draws, and the phases of the
step cycle around an instruction. -/

namespace Sys2Proof.Machine

/-- What a step or an instruction of this machine answers. -/
abbrev Result := Host.Outcome State Fault Refusal

/-- `I <- w` (10_state.md R32). -/
def State.setI (s : State) (w : Word) : State := { s with i := w }

/-- `PC <- w` (10_state.md R33). -/
def State.setPc (s : State) (w : Word) : State := { s with pc := w }

/-- `DT <- b` (10_state.md R35). -/
def State.setDt (s : State) (b : Byte) : State := { s with dt := b }

/-- `ST <- b` (10_state.md R36). -/
def State.setSt (s : State) (b : Byte) : State := { s with st := b }

/-- The framebuffer after a clear or a draw (10_state.md R37). -/
def State.setFb (s : State) (fb : Framebuffer) : State := { s with fb := fb }

/-- The memory after writes (10_state.md R39). -/
def State.setMem (s : State) (m : Memory) : State := { s with mem := m }

/-- The key latch after a `set_key` (10_state.md R38). -/
def State.setKey (s : State) (k : Option KeyIx) : State := { s with key := k }

/-- The call stack after a push or a pop (10_state.md R34). -/
def State.setStack (s : State) (k : List Word) : State := { s with stack := k }

/-! ### The program counter -/

/-- Phase 5 of the step cycle for an instruction that did not set `PC`: `PC + 2` mod 65536
(30_encoding.md R88, R89; log 20). -/
def State.advance (s : State) : State := s.setPc (s.pc + 2)

/-- `SkipIf(cond)`: `PC + 4` when the condition holds, else the normal advance
(41_conditional_skip.md R130). -/
def State.skipIf (s : State) (cond : Bool) : State :=
  if cond then s.setPc (s.pc + 4) else s.advance

/-! ### Taking a fatal error -/

/-- What a fatal error does (60_exceptions.md R246), applied to the state in which the instruction
started: the status becomes `Halted(e)`, the step returns `Err(e)`, and every other piece of state
is as it was, `PC` included (log 3). -/
def State.takeFatal (s : State) (e : Fault) : State :=
  { s with status := .halted e, result := some (.err e) }

/-- An attempt of an instruction that may raise: its state, or the fatal error taken in `s`, the
state in which the instruction started, so that none of its writes is kept (R246). -/
def State.orHalt (s : State) : Except Fault State → Result
  | .ok t => .next t
  | .error e => .next (s.takeFatal e)

/-- An access that failed at an address raises `MemoryFault{pc = P, addr}` (60_exceptions.md R240,
R241; log 16). -/
def State.memFault (s : State) {α : Type} : Except Nat α → Except Fault α
  | .ok a => .ok a
  | .error a => .error (.memoryFault s.pc a)

/-! ### The call stack -/

/-- `Push(v)` (10_state.md R34). A stack already at capacity raises `StackOverflow` (R242). -/
def State.push (s : State) (w : Word) : Except Fault State :=
  if Config.stackDepth ≤ s.stack.length then .error (.stackOverflow s.pc)
  else .ok (s.setStack (s.stack ++ [w]))

/-- `Pop()` (10_state.md R34): the top and the state without it. An empty stack raises
`StackUnderflow` (R243). -/
def State.pop (s : State) : Except Fault (Word × State) :=
  match s.stack.getLast? with
  | none => .error (.stackUnderflow s.pc)
  | some w => .ok (w, s.setStack s.stack.dropLast)

/-! ### Runs of bytes at I -/

/-- The `count` bytes at `I`, or the `MemoryFault` (43_index_memory.md R180). -/
def State.readAtI (s : State) (count : Nat) : Except Fault (List Byte) :=
  s.memFault (readBytes s.mem (s.effAddr 0) count)

/-- The state with bytes stored at `I`, or the `MemoryFault` (43_index_memory.md R180). -/
def State.writeAtI (s : State) (bs : List Byte) : Except Fault State :=
  match s.memFault (writeBytes s.mem (s.effAddr 0) bs) with
  | .error e => .error e
  | .ok m => .ok (s.setMem m)

/-- `I <- (I + x + 1) mod 65536`, after the accesses of Fx55 and Fx65 (R185, R186; log 12). -/
def State.bumpI (s : State) (x : RegIx) : State := s.setI (s.i + BitVec.ofNat 16 (x.val + 1))

/-! ### The free draws -/

/-- `RngByte()` (60_exceptions.md R258): the next byte of the random source. -/
def State.randomByte (s : State) : Byte := Config.randomByte s.rngDraws

/-- One byte of the random source has been taken (R258, log 6). -/
def State.drewRandom (s : State) : State := { s with rngDraws := s.rngDraws + 1 }

/-- The value Fx0A reads: the key, or with no key held the free `KeyNoneValue`
(45_timer_input.md R222). -/
def State.keyByte (s : State) : Byte :=
  match s.key with
  | some k => BitVec.ofNat 8 k.val
  | none => Config.keyNoneValue s.keyDraws

/-- With no key held one `KeyNoneValue` has been taken (R222, log 7). -/
def State.drewKey (s : State) : State :=
  match s.key with
  | some _ => s
  | none => { s with keyDraws := s.keyDraws + 1 }

/-! ### The step cycle around an instruction -/

/-- One tick of a timer: down by 1, floor at zero (60_exceptions.md R252). -/
def timerTick (b : Byte) : Byte := if b = 0 then 0 else b - 1

/-- What comes before the fetch in a step of a running VM: `started` is set and both timers tick
(30_encoding.md R88, phase 1). The result is `Ok` unless the rest of the step says otherwise. -/
def State.beginStep (s : State) : State :=
  { s with started := true, dt := timerTick s.dt, st := timerTick s.st, result := some .ok }

/-- Phase 2: the fetch at `PC` (20_memory.md R63). -/
def State.fetch (s : State) : Except Fault Word := s.memFault (fetch16 s.mem s.pc.toNat)

/-- An unmapped word: a warning in the step's result, no other effect, and the normal advance
(30_encoding.md R85, 60_exceptions.md R244). -/
def State.warnUnknown (s : State) (w : Word) : State :=
  { s with result := some (.warn s.pc w) }.advance

/-- A step of a VM halted with `e`: it returns `Err(e)` and changes nothing (60_exceptions.md R247;
log 4). -/
def State.haltedStep (s : State) (e : Fault) : State := { s with result := some (.err e) }

end Sys2Proof.Machine
end

