-- ==== Sys2Proof/Machine/Alu.lean ====
section
/-! DEFINITION. Register loads and arithmetic: 6xkk, 7xkk, 8xy0 to 8xyE, Cxkk (42_register_alu.md).
Operands are read in the state the instruction started in, before any write (R150). -/

namespace Sys2Proof.Machine

/-- `V[x] <- r` and the normal advance: an instruction with one register result. -/
def State.finishReg (s : State) (x : RegIx) (r : Byte) : Result := .next (s.setReg x r).advance

/-- `V[x] <- r`, then `VF <- f`, and the normal advance (R150). -/
def State.finishRegFlag (s : State) (x : RegIx) (r f : Byte) : Result :=
  .next (s.setResultFlag x r f).advance

/-- 6xkk (R151): `V[x] <- kk`. -/
def execLdVxKk (x : RegIx) (kk : Byte) (s : State) : Result := s.finishReg x kk

/-- 7xkk (R152): `V[x] <- (V[x] + kk) mod 256`, no flag. -/
def execAddVxKk (x : RegIx) (kk : Byte) (s : State) : Result := s.finishReg x (s.reg x + kk)

/-- 8xy0 (R153): `V[x] <- V[y]`. -/
def execLdVxVy (x y : RegIx) (s : State) : Result := s.finishReg x (s.reg y)

/-- 8xy1 (R154): `V[x] <- V[x] | V[y]`. -/
def execOrVxVy (x y : RegIx) (s : State) : Result := s.finishReg x (s.reg x ||| s.reg y)

/-- 8xy2 (R155): `V[x] <- V[x] & V[y]`. -/
def execAndVxVy (x y : RegIx) (s : State) : Result := s.finishReg x (s.reg x &&& s.reg y)

/-- 8xy3 (R156): `V[x] <- V[x] ^ V[y]`. -/
def execXorVxVy (x y : RegIx) (s : State) : Result := s.finishReg x (s.reg x ^^^ s.reg y)

/-- 8xy4 (R157): the sum mod 256, then VF = carry. -/
def execAddVxVy (x y : RegIx) (s : State) : Result :=
  s.finishRegFlag x (s.reg x + s.reg y) (carryFlag (s.reg x) (s.reg y))

/-- 8xy5 (R158): `V[x] - V[y]` mod 256, then VF = (V[x] > V[y]), strict. -/
def execSub (x y : RegIx) (s : State) : Result :=
  s.finishRegFlag x (s.reg x - s.reg y) (greaterFlag (s.reg x) (s.reg y))

/-- 8xy6 (R159): `V[x] >> 1`, then VF = old bit 0; `y` is not read. -/
def execShr (x _y : RegIx) (s : State) : Result :=
  s.finishRegFlag x (s.reg x >>> 1) (lowBitFlag (s.reg x))

/-- 8xy7 (R160): `V[y] - V[x]` mod 256, then VF = (V[y] > V[x]), strict. -/
def execSubn (x y : RegIx) (s : State) : Result :=
  s.finishRegFlag x (s.reg y - s.reg x) (greaterFlag (s.reg y) (s.reg x))

/-- 8xyE (R161): `V[x] << 1` mod 256, then VF = old bit 7; `y` is not read. -/
def execShl (x _y : RegIx) (s : State) : Result :=
  s.finishRegFlag x (s.reg x <<< 1) (highBitFlag (s.reg x))

/-- Cxkk with the byte `r` drawn (R162): `V[x] <- r & kk`, and one byte of the source is used up. -/
def State.finishRandom (s : State) (x : RegIx) (kk r : Byte) : Result :=
  s.drewRandom.finishReg x (r &&& kk)

/-- Cxkk (R162): one free draw of the random source (log 6). -/
def execRnd (x : RegIx) (kk : Byte) (s : State) : Result := s.finishRandom x kk s.randomByte

end Sys2Proof.Machine
end

