-- ==== Sys2Proof/Machine/ControlFlow.lean ====
section
/-! DEFINITION. Control transfer: 00EE, 1nnn, Bnnn, 2nnn (40_control_flow.md). -/

namespace Sys2Proof.Machine

/-- 00EE (R111): `t <- Pop(); PC <- t`. -/
def execRet (s : State) : Result :=
  s.orHalt (match s.pop with
    | .error e => .error e
    | .ok (w, t) => .ok (t.setPc w))

/-- 1nnn (R112): `PC <- nnn`. -/
def execJp (nnn : Word) (s : State) : Result := .next (s.setPc nnn)

/-- Bnnn (R113): `PC <- nnn + V[0]`. -/
def execJpV0 (nnn : Word) (s : State) : Result := .next (s.setPc (s.jumpOffset nnn))

/-- 2nnn (R114): `Push(P + 2); PC <- nnn` (log 8). -/
def execCall (nnn : Word) (s : State) : Result :=
  s.orHalt (match s.push (s.pc + 2) with
    | .error e => .error e
    | .ok t => .ok (t.setPc nnn))

end Sys2Proof.Machine
end

