-- ==== Sys2Proof/Machine/Display.lean ====
section
/-! DEFINITION. The framebuffer instructions: 00E0, Dxyn (44_display.md). -/

namespace Sys2Proof.Machine

/-- 00E0 (R200): every pixel false; VF is not written. -/
def execCls (s : State) : Result := .next (s.setFb Framebuffer.clear).advance

/-- The sprite of rows `bs` drawn at the origin `V[x]`, `V[y]`: the pixels, then VF = collision,
written last (R201, log 9). -/
def State.draw (s : State) (x y : RegIx) (bs : List Byte) : State :=
  let p := drawSprite s.fb (s.reg x).toNat (s.reg y).toNat bs
  (s.setFb p.fb).setFlag (flagByte p.coll)

/-- Dxyn (R201): read the `n` rows at `I`, then draw them. -/
def execDrw (x y : RegIx) (n : Nat) (s : State) : Result :=
  s.orHalt (match s.readAtI n with
    | .error e => .error e
    | .ok bs => .ok (s.draw x y bs).advance)

end Sys2Proof.Machine
end

