-- ==== Sys2Proof/Machine/IndexMemory.lean ====
section
/-! DEFINITION. The index register and memory transfers: Annn, Fx1E, Fx29, Fx33, Fx55, Fx65
(43_index_memory.md). -/

namespace Sys2Proof.Machine

/-- Annn (R181): `I <- nnn`. -/
def execLdINnn (nnn : Word) (s : State) : Result := .next (s.setI nnn).advance

/-- Fx1E (R182): `I <- (I + V[x]) mod 65536`, no flag (log 12). -/
def execAddIVx (x : RegIx) (s : State) : Result :=
  .next (s.setI (s.i + (s.reg x).setWidth 16)).advance

/-- Fx29 (R183): `I <- V[x] * 5`, the offset within the font table (log 14). -/
def execLdFVx (x : RegIx) (s : State) : Result := .next (s.setI (glyphOffset (s.reg x))).advance

/-- Fx33 (R184): the three decimal digits of `V[x]` to `M[I]`, `M[I+1]`, `M[I+2]`. -/
def execLdBVx (x : RegIx) (s : State) : Result :=
  s.orHalt (match s.writeAtI (bcdDigits (s.reg x)) with
    | .error e => .error e
    | .ok t => .ok t.advance)

/-- Fx55 (R185): `V[0]..V[x]` to `M[I]..M[I+x]`, then `I <- I + x + 1`. -/
def execLdMIVx (x : RegIx) (s : State) : Result :=
  s.orHalt (match s.writeAtI (s.regsUpTo x) with
    | .error e => .error e
    | .ok t => .ok (t.bumpI x).advance)

/-- Fx65 (R186): `M[I]..M[I+x]` to `V[0]..V[x]`, then `I <- I + x + 1`. -/
def execLdVxMI (x : RegIx) (s : State) : Result :=
  s.orHalt (match s.readAtI (x.val + 1) with
    | .error e => .error e
    | .ok bs => .ok ((s.loadRegs bs).bumpI x).advance)

end Sys2Proof.Machine
end

