-- ==== Sys2Proof/Machine/Skip.lean ====
section
/-! DEFINITION. Conditional skips: 3xkk, 4xkk, 5xy0, 9xy0, Ex9E, ExA1 (41_conditional_skip.md). -/

namespace Sys2Proof.Machine

/-- 3xkk (R131): skip if `V[x] = kk`. -/
def execSeVxKk (x : RegIx) (kk : Byte) (s : State) : Result := .next (s.skipIf (s.reg x = kk))

/-- 4xkk (R132): skip if `V[x] ≠ kk`. -/
def execSneVxKk (x : RegIx) (kk : Byte) (s : State) : Result := .next (s.skipIf (s.reg x ≠ kk))

/-- 5xy0 (R133): skip if `V[x] = V[y]`. -/
def execSeVxVy (x y : RegIx) (s : State) : Result := .next (s.skipIf (s.reg x = s.reg y))

/-- 9xy0 (R134): skip if `V[x] ≠ V[y]`. -/
def execSneVxVy (x y : RegIx) (s : State) : Result := .next (s.skipIf (s.reg x ≠ s.reg y))

/-- Ex9E (R135): skip if a key is held and it is `V[x]`. -/
def execSkp (x : RegIx) (s : State) : Result := .next (s.skipIf (s.keyIs (s.reg x)))

/-- ExA1 (R136): skip unless a key is held and it is `V[x]`. -/
def execSknp (x : RegIx) (s : State) : Result := .next (s.skipIf (!s.keyIs (s.reg x)))

end Sys2Proof.Machine
end

