-- ==== Sys2Proof/Machine/TimerInput.lean ====
section
/-! DEFINITION. Timer and key access: Fx07, Fx0A, Fx15, Fx18 (45_timer_input.md). The timers ticked
before the fetch, so the values read here are those after this step's tick (R220). -/

namespace Sys2Proof.Machine

/-- Fx07 (R221): `V[x] <- DT`. -/
def execLdVxDt (x : RegIx) (s : State) : Result := .next (s.setReg x s.dt).advance

/-- Fx0A (R222): `V[x] <- Key`, without waiting; with no key held a free byte (log 7). -/
def execLdVxK (x : RegIx) (s : State) : Result := .next (s.drewKey.setReg x s.keyByte).advance

/-- Fx15 (R223): `DT <- V[x]`. -/
def execLdDtVx (x : RegIx) (s : State) : Result := .next (s.setDt (s.reg x)).advance

/-- Fx18 (R224): `ST <- V[x]`. -/
def execLdStVx (x : RegIx) (s : State) : Result := .next (s.setSt (s.reg x)).advance

end Sys2Proof.Machine
end

