-- ==== Sys2Proof/Machine/Step.lean ====
section
/-! DEFINITION. The step of the machine (30_encoding.md R88), and where the host puts an instruction
word so that the next step runs it (log 19). -/

namespace Sys2Proof.Machine

/-- Phases 2 to 5 of a step: fetch, decode, execute (R88). A fetch that fails is taken as a fatal
error; an unmapped word is a no-op that warns. -/
def runCycle (s : State) : Host.Outcome State Fault Refusal :=
  match s.fetch with
  | .error e => .next (s.takeFatal e)
  | .ok w =>
    match decode w with
    | .insn i => exec i s
    | .unknown w => .next (s.warnUnknown w)

/-- One `step()` (R88). -/
def step (s : State) : Host.Outcome State Fault Refusal :=
  match s.status with
  | .halted e => .next (s.haltedStep e)
  | .running => runCycle s.beginStep

/-- A running state whose program counter lets the fetch succeed: `s` itself where it already is
one. Only the run status and the program counter can stand in the way of a fetch. -/
def State.readyToFetch (s : State) : State :=
  { s with
    status := .running
    pc := if s.pc.toNat + 1 < Config.memSize then s.pc else 0x200 }

/-- `s` with the word of an opcode-table row stored at the program counter, in the machine's byte
order, so that the next step fetches and runs it. -/
def State.withFetchWord (s : State) (nbits w : Nat) : State :=
  let t := s.readyToFetch
  let a := t.pc.toNat
  t.setMem ((t.mem.set a (highByte (tableWord nbits w))).set (a + 1) (lowByte (tableWord nbits w)))

end Sys2Proof.Machine
end

