-- ==== Sys2Proof/Machine/HostPort.lean ====
section
/-! DEFINITION. The host's calls on the block besides the step: construction, load, `set_key` and the
reads (60_exceptions.md R254–R259, 70_reset_and_hazards.md R280–R284, R291; log 17). -/

namespace Sys2Proof.Machine

/-- The error kinds of 60_exceptions.md R240. -/
inductive ErrorKind where
  | romTooLarge
  | memoryFault
  | stackOverflow
  | stackUnderflow
  | unknownOpcode
  deriving DecidableEq, Repr

/-- The numeric code of an error kind (R240; the spec's D13: labels only). -/
def ErrorKind.code : ErrorKind → Nat
  | .romTooLarge => 1
  | .memoryFault => 2
  | .stackOverflow => 3
  | .stackUnderflow => 4
  | .unknownOpcode => 5

/-- The kind of a fatal error (R240). -/
def Fault.kind : Fault → ErrorKind
  | .memoryFault _ _ => .memoryFault
  | .stackOverflow _ => .stackOverflow
  | .stackUnderflow _ => .stackUnderflow

/-- Fatal kinds stop the VM; the others are load-time or a warning (R240). -/
def ErrorKind.fatal : ErrorKind → Bool
  | .romTooLarge => false
  | .memoryFault => true
  | .stackOverflow => true
  | .stackUnderflow => true
  | .unknownOpcode => false

/-- What `load` returns to the host (70_reset_and_hazards.md R282, R283). -/
inductive LoadResult where
  /-- `Ok(L)`: the byte count loaded. -/
  | ok (count : Nat)
  /-- `Err(RomTooLarge(L))`: the byte count offered; nothing changed. -/
  | romTooLarge (count : Nat)
  deriving DecidableEq, Repr

/-- Bytes written at rising addresses from `a` on. -/
def Memory.setAll : Memory → Nat → List Byte → Memory
  | m, _, [] => m
  | m, a, b :: bs => Memory.setAll (m.set a b) (a + 1) bs

/-- `Load(bytes)` (R282–R284): refused once a step has run; an image of more than 3584 bytes changes
nothing; else the bytes go to 0x200 on. -/
def hostLoad (bytes : List Byte) (s : State) : Host.Outcome (LoadResult × State) Fault Refusal :=
  if s.started then .refused .loadAfterStart
  else if Config.maxRom < bytes.length then .next (.romTooLarge bytes.length, s)
  else .next (.ok bytes.length, s.setMem (s.mem.setAll Config.progBase bytes))

/-- `set_key(value)` (60_exceptions.md R255): the latch takes none or a key 0–15; accepted in every
run status; any other value is refused. -/
def hostSetKey (value : Option Nat) (s : State) : Result :=
  match value with
  | none => .next (s.setKey none)
  | some k => if h : k < 16 then .next (s.setKey (some ⟨k, h⟩)) else .refused (.keyOutOfRange k)

/-- Construction (70_reset_and_hazards.md R280): it replaces every piece of the spec's state, and no
step has returned yet. DESIGN CHOICE (safe, logs 6 and 7): the spec is silent on whether the random
source and the `KeyNoneValue` draws start over. The source is an input, not state (10_state.md R41), so
the two draw counters run on: no byte drawn before comes again by its number. -/
def hostConstruct (s : State) : State :=
  { State.reset with rngDraws := s.rngDraws, keyDraws := s.keyDraws }

/-- The framebuffer read (60_exceptions.md R256). -/
def hostReadPixel (s : State) (c : Col) (q : Row) : Bool := s.fb.pixel c q

/-- The timer read (60_exceptions.md R257). -/
def hostReadTimers (s : State) : Byte × Byte := (s.dt, s.st)

/-- What the register readout shows (60_exceptions.md R259). -/
structure Readout where
  v : Vector Byte 16
  i : Word
  pc : Word
  stack : List Word
  status : RunStatus
  deriving DecidableEq, Repr

/-- The register readout (60_exceptions.md R259; the spec's D19). -/
def hostReadout (s : State) : Readout :=
  { v := s.v, i := s.i, pc := s.pc, stack := s.stack, status := s.status }

/-- A call of the host that can change the state (70_reset_and_hazards.md R291). -/
inductive HostCall where
  | construct
  | load (bytes : List Byte)
  | step
  | setKey (value : Option Nat)
  deriving DecidableEq, Repr

/-- The state after a host call. The calls are serialized, each one atomic (R291). -/
def HostCall.run (c : HostCall) (s : State) : Result :=
  match c with
  | .construct => .next (hostConstruct s)
  | .load bytes =>
    match hostLoad bytes s with
    | .next (_, t) => .next t
    | .fault e => .fault e
    | .refused r => .refused r
  | .step => Machine.step s
  | .setKey value => hostSetKey value s

end Sys2Proof.Machine
end

