-- ==== Sys2Proof/Safety.lean ====
section
/-! DEFINITION. The terms the statements use: the invariant of the machine, the parts of the state and
what it means to change only some of them, and how a run ends. -/

namespace Sys2Proof.Machine

/-- The invariant every step and every host call keeps: the memory is in its canonical form; the call
stack never exceeds its capacity of 16 (10_state.md R34); a halted VM has been started, and what its
last step returned is the error that halted it (60_exceptions.md R246, R247). -/
structure Inv (s : State) : Prop where
  memory : s.mem.wf = true
  stackBound : s.stack.length ≤ 16
  haltedStarted : ∀ e, s.status = .halted e → s.started = true
  haltedResult : ∀ e, s.status = .halted e → s.result = some (.err e)

/-- The bound of 10_state.md R33: no reachable execution wraps the program counter. The largest value
a rule writes is 0x10FE (Bnnn), and the largest return address is 0x1000 (a call at 0xFFE). -/
structure PcBound (s : State) : Prop where
  pc : s.pc.toNat ≤ 0x10FE
  returns : ∀ w ∈ s.stack, w.toNat ≤ 0x1000

/-- The parts of the state a frame speaks of: each register, each byte of memory, each pixel, and
every other field. -/
inductive Part where
  | reg (x : RegIx)
  | i
  | pc
  | stack
  | dt
  | st
  | pixel (c : Col) (q : Row)
  | key
  | byte (a : Nat)
  | status
  | started
  | result
  | rngDraws
  | keyDraws

/-- The part holds the same in both states; memory is compared byte by byte, through its read. -/
def Part.Same (s t : State) : Part → Prop
  | .reg x => t.reg x = s.reg x
  | .i => t.i = s.i
  | .pc => t.pc = s.pc
  | .stack => t.stack = s.stack
  | .dt => t.dt = s.dt
  | .st => t.st = s.st
  | .pixel c q => t.fb.pixel c q = s.fb.pixel c q
  | .key => t.key = s.key
  | .byte a => t.mem.get a = s.mem.get a
  | .status => t.status = s.status
  | .started => t.started = s.started
  | .result => t.result = s.result
  | .rngDraws => t.rngDraws = s.rngDraws
  | .keyDraws => t.keyDraws = s.keyDraws

/-- From `s` to `t` nothing changed but the parts of `w`. -/
def ChangesOnly (w : Set Part) (s t : State) : Prop := ∀ p, p ∉ w → p.Same s t

/-- Every pixel of the framebuffer. -/
def Part.pixels : Set Part := { p | ∃ c q, p = .pixel c q }

/-- The registers `V[0]` to `V[x]`. -/
def Part.regsUpTo (x : RegIx) : Set Part := { p | ∃ r : RegIx, r ≤ x ∧ p = .reg r }

/-- The `count` bytes of memory from address `a` on. -/
def Part.bytes (a count : Nat) : Set Part := { p | ∃ k, k < count ∧ p = .byte (a + k) }

/-- What a fatal error writes (60_exceptions.md R246): the status and the step's result. -/
def Part.halting : Set Part := {.status, .result}

/-- The instruction's word is decoded exactly by the mask and match of its row (30_encoding.md R83). -/
def DecodesRow (mask pat : Word) (f : Word → Instr) : Prop :=
  ∀ w : Word, w &&& mask = pat → decode w = .insn (f w)

/-- A running machine whose word at the program counter can be fetched and is `w`: what the next step
executes (30_encoding.md R88). -/
def FetchesWord (s : State) (w : Word) : Prop :=
  s.status = .running ∧ s.pc.toNat + 1 < 4096 ∧
    w.toNat = (s.mem.get s.pc.toNat).toNat * 256 + (s.mem.get (s.pc.toNat + 1)).toNat

/-- The sprite whose row `r` is the byte `rows r`, `n` rows high, has a 1 at the pixel `(c, q)` when
its origin is column `ox mod 64`, row `oy mod 32` (44_display.md R201). -/
def SpriteLights (rows : Nat → Byte) (n ox oy : Nat) (c : Col) (q : Row) : Prop :=
  ∃ r b : Nat, r < n ∧ b < 8 ∧ (rows r).getLsbD (7 - b) = true ∧
    c.val = (ox % 64 + b) % 64 ∧ q.val = (oy % 32 + r) % 32

/-- The instruction writes VF as a side effect (10_state.md R31). -/
def Instr.SetsFlag (i : Instr) : Prop :=
  ∃ x y, i = .addVxVy x y ∨ i = .sub x y ∨ i = .shr x y ∨ i = .subn x y ∨ i = .shl x y ∨
    ∃ n, i = .drw x y n

/-- The instruction has register `r` as its destination (10_state.md R43, the rows `V[x]` and `V[0]`
implicit). -/
def Instr.HasDestination (i : Instr) (r : RegIx) : Prop :=
  (∃ kk, i = .ldVxKk r kk ∨ i = .addVxKk r kk ∨ i = .rnd r kk) ∨
  (∃ y, i = .ldVxVy r y ∨ i = .orVxVy r y ∨ i = .andVxVy r y ∨ i = .xorVxVy r y ∨ i = .addVxVy r y ∨
    i = .sub r y ∨ i = .shr r y ∨ i = .subn r y ∨ i = .shl r y) ∨
  i = .ldVxDt r ∨ i = .ldVxK r ∨ (∃ x, r ≤ x ∧ i = .ldVxMI x)

/-- A run has come to its fault end (70_reset_and_hazards.md R290). -/
def FaultEnd (s : State) : Prop := ∃ e, s.status = .halted e

/-- A run has come to its idle end: a running machine whose word at the program counter is `1nnn` with
`nnn = PC` (70_reset_and_hazards.md R290). -/
def IdleEnd (s : State) : Prop :=
  ∃ w : Word, FetchesWord s w ∧ w.toNat = 0x1000 + s.pc.toNat

end Sys2Proof.Machine
end

