-- ==== Sys2Proof/Certificates/Slice0/Obligations.lean ====
section
/-! DEFINITION. The statements about the machine, for the provers. `DecodesRow`, `ChangesOnly`, the
parts of the state and the other terms are in Safety.lean. -/

open Sys2Proof Sys2Proof.Machine

/-! ### Control transfer (40_control_flow.md) -/

/-- R112: 1nnn sets PC to nnn and changes nothing else. -/
def Obligations.JumpSetsPcToNnn : Prop :=
  DecodesRow 0xF000 0x1000 (fun w => .jp (fieldNnn w)) ∧
  ∀ (nnn : Word) (s : State), ∃ t, exec (.jp nnn) s = .next t ∧
    t.pc = nnn ∧ ChangesOnly {.pc} s t

/-- R113: Bnnn sets PC to nnn + V[0] and changes nothing else. -/
def Obligations.JumpOffsetAddsV0 : Prop :=
  DecodesRow 0xF000 0xB000 (fun w => .jpV0 (fieldNnn w)) ∧
  ∀ (nnn : Word) (s : State), ∃ t, exec (.jpV0 nnn) s = .next t ∧
    t.pc.toNat = (nnn.toNat + (s.reg 0).toNat) % 65536 ∧ ChangesOnly {.pc} s t

/-- 2nnn with room on the stack pushes the return address P + 2 (the spec's decision D1, log 8) and
sets PC to nnn. -/
def Obligations.CallPushesReturnAddress : Prop :=
  DecodesRow 0xF000 0x2000 (fun w => .call (fieldNnn w)) ∧
  ∀ (nnn : Word) (s : State), s.stack.length < 16 → ∃ t, exec (.call nnn) s = .next t ∧
    t.stack = s.stack ++ [s.pc + 2] ∧ t.pc = nnn ∧ ChangesOnly {.pc, .stack} s t

/-- 00EE with an entry on the stack sets PC to the top entry, with no further advance, and removes it
(the spec's decision D1, log 8). -/
def Obligations.ReturnPopsIntoPc : Prop :=
  decode 0x00EE = .insn .ret ∧
  ∀ (s : State) (rest : List Word) (top : Word), s.stack = rest ++ [top] →
    ∃ t, exec .ret s = .next t ∧ t.pc = top ∧ t.stack = rest ∧ ChangesOnly {.pc, .stack} s t

/-- A call followed by a return continues after the call, with the stack as it was: nothing but PC
differs (§8 "calls/returns preserve LIFO order"; D1, log 8). -/
def Obligations.ReturnUndoesCall : Prop :=
  ∀ (nnn : Word) (s t : State), s.stack.length < 16 → exec (.call nnn) s = .next t →
    ∃ u, exec .ret t = .next u ∧ u.pc = s.pc + 2 ∧ ChangesOnly {.pc} s u

/-- 2nnn on a full stack reports StackOverflow, 00EE on an empty one StackUnderflow, each with its PC,
and neither instruction reports anything otherwise (60_exceptions.md, Error kinds). How the error is told,
by the status and the step's result, is the model's choice after the spec's D9, D10 and D14 (logs 3, 5). -/
def Obligations.StackErrorsAreReported : Prop :=
  (∀ (nnn : Word) (s : State), s.stack.length = 16 → ∃ t, exec (.call nnn) s = .next t ∧
    t.status = .halted (.stackOverflow s.pc) ∧ t.result = some (.err (.stackOverflow s.pc))) ∧
  (∀ (nnn : Word) (s : State), s.stack.length < 16 → ∃ t, exec (.call nnn) s = .next t ∧
    t.status = s.status ∧ t.result = s.result) ∧
  (∀ s : State, s.stack.length = 0 → ∃ t, exec .ret s = .next t ∧
    t.status = .halted (.stackUnderflow s.pc) ∧ t.result = some (.err (.stackUnderflow s.pc))) ∧
  (∀ s : State, 0 < s.stack.length → ∃ t, exec .ret s = .next t ∧
    t.status = s.status ∧ t.result = s.result)

/-- 2nnn on a full stack and 00EE on an empty one change the status and the result, nothing else (the
spec's decision D9, log 3). -/
def Obligations.StackErrorsCommitNothing : Prop :=
  (∀ (nnn : Word) (s t : State), 16 ≤ s.stack.length → exec (.call nnn) s = .next t →
    ChangesOnly Part.halting s t) ∧
  (∀ s t : State, s.stack = [] → exec .ret s = .next t → ChangesOnly Part.halting s t)

/-! ### Conditional skips (41_conditional_skip.md) -/

/-- R131, R132: 3xkk and 4xkk compare V[x] with kk, and change nothing but PC. -/
def Obligations.SkipOnImmediate : Prop :=
  DecodesRow 0xF000 0x3000 (fun w => .seVxKk (fieldX w) (fieldKk w)) ∧
  DecodesRow 0xF000 0x4000 (fun w => .sneVxKk (fieldX w) (fieldKk w)) ∧
  ∀ (x : RegIx) (kk : Byte) (s : State),
    (∃ t, exec (.seVxKk x kk) s = .next t ∧
      t.pc = (if s.reg x = kk then s.pc + 4 else s.pc + 2) ∧ ChangesOnly {.pc} s t) ∧
    (∃ t, exec (.sneVxKk x kk) s = .next t ∧
      t.pc = (if s.reg x = kk then s.pc + 2 else s.pc + 4) ∧ ChangesOnly {.pc} s t)

/-- 5xy0 and 9xy0 compare V[x] with V[y], and change nothing but PC; 5xyN and 9xyN with another low
digit are Unknown (the spec's decision D3, log 10). -/
def Obligations.SkipOnRegister : Prop :=
  DecodesRow 0xF00F 0x5000 (fun w => .seVxVy (fieldX w) (fieldY w)) ∧
  DecodesRow 0xF00F 0x9000 (fun w => .sneVxVy (fieldX w) (fieldY w)) ∧
  (∀ w : Word, (w.toNat / 4096 = 5 ∨ w.toNat / 4096 = 9) → w.toNat % 16 ≠ 0 →
    decode w = .unknown w) ∧
  ∀ (x y : RegIx) (s : State),
    (∃ t, exec (.seVxVy x y) s = .next t ∧
      t.pc = (if s.reg x = s.reg y then s.pc + 4 else s.pc + 2) ∧ ChangesOnly {.pc} s t) ∧
    (∃ t, exec (.sneVxVy x y) s = .next t ∧
      t.pc = (if s.reg x = s.reg y then s.pc + 2 else s.pc + 4) ∧ ChangesOnly {.pc} s t)

/-- Ex9E skips exactly when a key is held and its number is V[x], ExA1 exactly otherwise; no key, or
V[x] above 15, matches nothing (the spec's decision D6, log 11). -/
def Obligations.SkipOnKey : Prop :=
  DecodesRow 0xF0FF 0xE09E (fun w => .skp (fieldX w)) ∧
  DecodesRow 0xF0FF 0xE0A1 (fun w => .sknp (fieldX w)) ∧
  ∀ (x : RegIx) (s : State), ∃ t u, exec (.skp x) s = .next t ∧ exec (.sknp x) s = .next u ∧
    ChangesOnly {.pc} s t ∧ ChangesOnly {.pc} s u ∧
    ((∃ k, s.key = some k ∧ k.val = (s.reg x).toNat) → t.pc = s.pc + 4 ∧ u.pc = s.pc + 2) ∧
    ((∀ k, s.key = some k → k.val ≠ (s.reg x).toNat) → t.pc = s.pc + 2 ∧ u.pc = s.pc + 4)

/-! ### Register loads and arithmetic (42_register_alu.md) -/

/-- R151, R152: 6xkk loads kk; 7xkk adds kk mod 256 and sets no flag. -/
def Obligations.ImmediateLoadAndAdd : Prop :=
  DecodesRow 0xF000 0x6000 (fun w => .ldVxKk (fieldX w) (fieldKk w)) ∧
  DecodesRow 0xF000 0x7000 (fun w => .addVxKk (fieldX w) (fieldKk w)) ∧
  ∀ (x : RegIx) (kk : Byte) (s : State),
    (∃ t, exec (.ldVxKk x kk) s = .next t ∧ t.reg x = kk ∧ t.pc = s.pc + 2 ∧
      ChangesOnly {.reg x, .pc} s t) ∧
    (∃ t, exec (.addVxKk x kk) s = .next t ∧
      (t.reg x).toNat = ((s.reg x).toNat + kk.toNat) % 256 ∧ t.pc = s.pc + 2 ∧
      ChangesOnly {.reg x, .pc} s t)

/-- R153 to R156: copy, OR, AND and XOR, bit by bit; no flag is written. -/
def Obligations.CopyAndBitwise : Prop :=
  DecodesRow 0xF00F 0x8000 (fun w => .ldVxVy (fieldX w) (fieldY w)) ∧
  DecodesRow 0xF00F 0x8001 (fun w => .orVxVy (fieldX w) (fieldY w)) ∧
  DecodesRow 0xF00F 0x8002 (fun w => .andVxVy (fieldX w) (fieldY w)) ∧
  DecodesRow 0xF00F 0x8003 (fun w => .xorVxVy (fieldX w) (fieldY w)) ∧
  ∀ (x y : RegIx) (s : State),
    (∃ t, exec (.ldVxVy x y) s = .next t ∧ t.reg x = s.reg y ∧ t.pc = s.pc + 2 ∧
      ChangesOnly {.reg x, .pc} s t) ∧
    (∃ t, exec (.orVxVy x y) s = .next t ∧
      (∀ b, (t.reg x).getLsbD b = ((s.reg x).getLsbD b || (s.reg y).getLsbD b)) ∧
      t.pc = s.pc + 2 ∧ ChangesOnly {.reg x, .pc} s t) ∧
    (∃ t, exec (.andVxVy x y) s = .next t ∧
      (∀ b, (t.reg x).getLsbD b = ((s.reg x).getLsbD b && (s.reg y).getLsbD b)) ∧
      t.pc = s.pc + 2 ∧ ChangesOnly {.reg x, .pc} s t) ∧
    (∃ t, exec (.xorVxVy x y) s = .next t ∧
      (∀ b, (t.reg x).getLsbD b = ((s.reg x).getLsbD b ^^ (s.reg y).getLsbD b)) ∧
      t.pc = s.pc + 2 ∧ ChangesOnly {.reg x, .pc} s t)

/-- 8xy4 writes the sum mod 256, then VF = 1 exactly when the sum is above 255; VF is written last, so
with x = 15 the carry is what remains (the spec's decision D2, log 9). -/
def Obligations.AddSetsCarry : Prop :=
  DecodesRow 0xF00F 0x8004 (fun w => .addVxVy (fieldX w) (fieldY w)) ∧
  ∀ (x y : RegIx) (s : State), ∃ t, exec (.addVxVy x y) s = .next t ∧
    (x ≠ 15 → (t.reg x).toNat = ((s.reg x).toNat + (s.reg y).toNat) % 256) ∧
    (t.reg 15).toNat = (if 255 < (s.reg x).toNat + (s.reg y).toNat then 1 else 0) ∧
    t.pc = s.pc + 2 ∧ ChangesOnly {.reg x, .reg 15, .pc} s t

/-- 8xy5 and 8xy7 write the difference mod 256, then VF = 1 exactly when the minuend is strictly
greater; VF is written last, so with x = 15 the flag is what remains (the spec's decision D2, log 9). -/
def Obligations.SubtractSetsStrictGreater : Prop :=
  DecodesRow 0xF00F 0x8005 (fun w => .sub (fieldX w) (fieldY w)) ∧
  DecodesRow 0xF00F 0x8007 (fun w => .subn (fieldX w) (fieldY w)) ∧
  ∀ (x y : RegIx) (s : State),
    (∃ t, exec (.sub x y) s = .next t ∧
      (x ≠ 15 → (t.reg x).toNat = ((s.reg x).toNat + 256 - (s.reg y).toNat) % 256) ∧
      (t.reg 15).toNat = (if (s.reg y).toNat < (s.reg x).toNat then 1 else 0) ∧
      t.pc = s.pc + 2 ∧ ChangesOnly {.reg x, .reg 15, .pc} s t) ∧
    (∃ t, exec (.subn x y) s = .next t ∧
      (x ≠ 15 → (t.reg x).toNat = ((s.reg y).toNat + 256 - (s.reg x).toNat) % 256) ∧
      (t.reg 15).toNat = (if (s.reg x).toNat < (s.reg y).toNat then 1 else 0) ∧
      t.pc = s.pc + 2 ∧ ChangesOnly {.reg x, .reg 15, .pc} s t)

/-- 8xy6 halves V[x] and 8xyE doubles it mod 256, then VF = the bit shifted out; y has no effect; VF is
written last, so with x = 15 the flag is what remains (the spec's decision D2, log 9). -/
def Obligations.ShiftsSetBitShiftedOut : Prop :=
  DecodesRow 0xF00F 0x8006 (fun w => .shr (fieldX w) (fieldY w)) ∧
  DecodesRow 0xF00F 0x800E (fun w => .shl (fieldX w) (fieldY w)) ∧
  ∀ (x y : RegIx) (s : State),
    (∃ t, exec (.shr x y) s = .next t ∧
      (x ≠ 15 → (t.reg x).toNat = (s.reg x).toNat / 2) ∧
      (t.reg 15).toNat = (s.reg x).toNat % 2 ∧
      t.pc = s.pc + 2 ∧ ChangesOnly {.reg x, .reg 15, .pc} s t) ∧
    (∃ t, exec (.shl x y) s = .next t ∧
      (x ≠ 15 → (t.reg x).toNat = (s.reg x).toNat * 2 % 256) ∧
      (t.reg 15).toNat = (s.reg x).toNat / 128 ∧
      t.pc = s.pc + 2 ∧ ChangesOnly {.reg x, .reg 15, .pc} s t)

/-- Cxkk writes one byte drawn from the random source, masked with kk, and uses up exactly that one
draw (the spec's decision D21; the free value of log 6: whatever byte it is). -/
def Obligations.RandomDrawIsMasked : Prop :=
  DecodesRow 0xF000 0xC000 (fun w => .rnd (fieldX w) (fieldKk w)) ∧
  ∀ (x : RegIx) (kk : Byte) (s : State), ∃ t, exec (.rnd x kk) s = .next t ∧
    t.reg x = Config.randomByte s.rngDraws &&& kk ∧ t.rngDraws = s.rngDraws + 1 ∧
    t.pc = s.pc + 2 ∧ ChangesOnly {.reg x, .rngDraws, .pc} s t

/-! ### The index register and memory (43_index_memory.md, 20_memory.md) -/

/-- R181: Annn sets I to nnn. -/
def Obligations.SetIndexRegister : Prop :=
  DecodesRow 0xF000 0xA000 (fun w => .ldINnn (fieldNnn w)) ∧
  ∀ (nnn : Word) (s : State), ∃ t, exec (.ldINnn nnn) s = .next t ∧
    t.i = nnn ∧ t.pc = s.pc + 2 ∧ ChangesOnly {.i, .pc} s t

/-- Fx1E adds V[x] to I mod 65536 (the spec's decision D7, log 12) and Fx29 sets I to V[x] * 5 for
every V[x] (D22, log 14); neither writes a flag. -/
def Obligations.IndexArithmetic : Prop :=
  DecodesRow 0xF0FF 0xF01E (fun w => .addIVx (fieldX w)) ∧
  DecodesRow 0xF0FF 0xF029 (fun w => .ldFVx (fieldX w)) ∧
  ∀ (x : RegIx) (s : State),
    (∃ t, exec (.addIVx x) s = .next t ∧
      t.i.toNat = (s.i.toNat + (s.reg x).toNat) % 65536 ∧ t.pc = s.pc + 2 ∧
      ChangesOnly {.i, .pc} s t) ∧
    (∃ t, exec (.ldFVx x) s = .next t ∧
      t.i.toNat = (s.reg x).toNat * 5 ∧ t.pc = s.pc + 2 ∧ ChangesOnly {.i, .pc} s t)

/-- Fx33 with its three addresses in range stores the decimal digits of V[x], hundreds first, at I,
I+1, I+2, and nothing else in memory. -/
def Obligations.BcdStoresThreeDigits : Prop :=
  DecodesRow 0xF0FF 0xF033 (fun w => .ldBVx (fieldX w)) ∧
  ∀ (x : RegIx) (s : State), s.mem.wf = true → s.effAddr 2 < 4096 →
    ∃ t, exec (.ldBVx x) s = .next t ∧
      (t.mem.get (s.effAddr 0)).toNat = (s.reg x).toNat / 100 ∧
      (t.mem.get (s.effAddr 1)).toNat = (s.reg x).toNat / 10 % 10 ∧
      (t.mem.get (s.effAddr 2)).toNat = (s.reg x).toNat % 10 ∧
      t.pc = s.pc + 2 ∧ ChangesOnly ({.pc} ∪ Part.bytes (s.effAddr 0) 3) s t

/-- Fx55 with its addresses in range stores V[0] to V[x] at I to I + x, then adds x + 1 to I
mod 65536; nothing else changes. -/
def Obligations.StoreRegistersAtIndex : Prop :=
  DecodesRow 0xF0FF 0xF055 (fun w => .ldMIVx (fieldX w)) ∧
  ∀ (x : RegIx) (s : State), s.mem.wf = true → s.effAddr x.val < 4096 →
    ∃ t, exec (.ldMIVx x) s = .next t ∧
      (∀ r : RegIx, r ≤ x → t.mem.get (s.effAddr r.val) = s.reg r) ∧
      t.i.toNat = (s.i.toNat + x.val + 1) % 65536 ∧ t.pc = s.pc + 2 ∧
      ChangesOnly ({.pc, .i} ∪ Part.bytes (s.effAddr 0) (x.val + 1)) s t

/-- Fx65 with its addresses in range loads V[0] to V[x] from I to I + x, then adds x + 1 to I
mod 65536; nothing else changes, no byte of memory in particular. -/
def Obligations.LoadRegistersFromIndex : Prop :=
  DecodesRow 0xF0FF 0xF065 (fun w => .ldVxMI (fieldX w)) ∧
  ∀ (x : RegIx) (s : State), s.effAddr x.val < 4096 →
    ∃ t, exec (.ldVxMI x) s = .next t ∧
      (∀ r : RegIx, r ≤ x → t.reg r = s.mem.get (s.effAddr r.val)) ∧
      t.i.toNat = (s.i.toNat + x.val + 1) % 65536 ∧ t.pc = s.pc + 2 ∧
      ChangesOnly ({.pc, .i} ∪ Part.regsUpTo x) s t

/-- Dxyn, Fx33, Fx55 and Fx65 with an address of 4096 or more halt with MemoryFault, naming the
instruction's PC and the first address out of range, and none of their writes is kept; an address is
never wrapped, so I = 0xFFFF faults too (the spec's decisions D8, D9, D27; logs 3, 12, 16). -/
def Obligations.OutOfRangeAccessHalts : Prop :=
  ∀ (i : Instr) (count : Nat) (s : State),
    ((∃ x y, i = .drw x y count) ∨ ((∃ x, i = .ldBVx x) ∧ count = 3) ∨
      (∃ x : RegIx, (i = .ldMIVx x ∨ i = .ldVxMI x) ∧ count = x.val + 1)) →
    0 < count → 4096 < s.i.toNat + count →
    ∃ t, exec i s = .next t ∧
      t.status = .halted (.memoryFault s.pc (max s.i.toNat 4096)) ∧
      t.result = some (.err (.memoryFault s.pc (max s.i.toNat 4096))) ∧
      ChangesOnly Part.halting s t

/-- A byte access at 4096 or more raises MemoryFault with that address; below, a write to a canonical
memory leaves its byte at its address and every other byte as it was (20_memory.md, The address space),
and keeps the memory canonical. The canonical form is the model's choice (log 18). -/
def Obligations.ByteAccessReadsLastWrite : Prop :=
  ∀ (m : Memory) (a : Nat) (u : Byte),
    (4096 ≤ a → memRead m a = .error a ∧ memWrite m a u = .error a) ∧
    (a < 4096 → memRead m a = .ok (m.get a) ∧
      (m.wf = true → ∃ m', memWrite m a u = .ok m' ∧ m'.wf = true ∧
        memRead m' a = .ok u ∧ ∀ b, b ≠ a → memRead m' b = memRead m b))

/-- The fetch is big-endian and its only condition is the range: below 4096 for both bytes it answers
the word, at an even or an odd address; else it raises MemoryFault with the address fetched from (the
spec's decisions D11, D27; logs 13, 16). -/
def Obligations.FetchIsBigEndian : Prop :=
  ∀ (m : Memory) (a : Nat),
    (a + 1 < 4096 → ∃ w, fetch16 m a = .ok w ∧
      w.toNat = (m.get a).toNat * 256 + (m.get (a + 1)).toNat) ∧
    (4096 ≤ a + 1 → fetch16 m a = .error a)

/-! ### The framebuffer (44_display.md) -/

/-- R200: 00E0 makes every pixel false and changes nothing else; VF is not written. -/
def Obligations.ClearScreenClearsAll : Prop :=
  decode 0x00E0 = .insn .cls ∧
  ∀ s : State, ∃ t, exec .cls s = .next t ∧
    (∀ c q, t.fb.pixel c q = false) ∧ t.pc = s.pc + 2 ∧ ChangesOnly ({.pc} ∪ Part.pixels) s t

/-- Dxyn with its rows in range inverts exactly the pixels its sprite lights, wrapped on both axes,
and sets VF to 1 exactly when one of them was set; the origin is V[x], V[y] from before the
instruction, for x or y = 15 too (the spec's decision D24, log 9). -/
def Obligations.DrawTogglesSpritePixels : Prop :=
  DecodesRow 0xF000 0xD000 (fun w => .drw (fieldX w) (fieldY w) (fieldN w)) ∧
  ∀ (x y : RegIx) (n : Nat) (s : State), n ≤ 15 → (n = 0 ∨ s.i.toNat + n ≤ 4096) →
    ∃ t, exec (.drw x y n) s = .next t ∧
      (∀ c q, SpriteLights (fun r => s.mem.get (s.effAddr r)) n (s.reg x).toNat (s.reg y).toNat c q →
        t.fb.pixel c q = !s.fb.pixel c q) ∧
      (∀ c q, ¬ SpriteLights (fun r => s.mem.get (s.effAddr r)) n (s.reg x).toNat (s.reg y).toNat c q →
        t.fb.pixel c q = s.fb.pixel c q) ∧
      ((∃ c q, SpriteLights (fun r => s.mem.get (s.effAddr r)) n (s.reg x).toNat (s.reg y).toNat c q ∧
        s.fb.pixel c q = true) → t.reg 15 = 1) ∧
      ((∀ c q, SpriteLights (fun r => s.mem.get (s.effAddr r)) n (s.reg x).toNat (s.reg y).toNat c q →
        s.fb.pixel c q = false) → t.reg 15 = 0) ∧
      t.pc = s.pc + 2 ∧ ChangesOnly ({.pc, .reg 15} ∪ Part.pixels) s t

/-- Drawing the same sprite at the same origin twice leaves every pixel as it was (§8 "XOR
idempotence"); x and y are not 15, as the first draw would move such an origin. On a clear framebuffer
the second draw finds a collision exactly when the sprite has a bit that is 1. -/
def Obligations.DrawTwiceRestoresPixels : Prop :=
  ∀ (x y : RegIx) (n : Nat) (s t : State), x ≠ 15 → y ≠ 15 → n ≤ 15 → s.i.toNat + n ≤ 4096 →
    exec (.drw x y n) s = .next t →
    ∃ u, exec (.drw x y n) t = .next u ∧ (∀ c q, u.fb.pixel c q = s.fb.pixel c q) ∧
      ((∀ c q, s.fb.pixel c q = false) →
        ((∃ r b, r < n ∧ b < 8 ∧ (s.mem.get (s.i.toNat + r)).getLsbD b = true) → u.reg 15 = 1) ∧
        ((∀ r, r < n → s.mem.get (s.i.toNat + r) = 0) → u.reg 15 = 0))

/-! ### Timers and the key (45_timer_input.md, 60_exceptions.md) -/

/-- R221, R223, R224: Fx07 reads DT, Fx15 writes it, Fx18 writes ST; in a whole step Fx07 reads the
value after this step's decrement, and what Fx15 and Fx18 write is what the step leaves. -/
def Obligations.TimerAccesses : Prop :=
  DecodesRow 0xF0FF 0xF007 (fun w => .ldVxDt (fieldX w)) ∧
  DecodesRow 0xF0FF 0xF015 (fun w => .ldDtVx (fieldX w)) ∧
  DecodesRow 0xF0FF 0xF018 (fun w => .ldStVx (fieldX w)) ∧
  (∀ (x : RegIx) (s : State),
    (∃ t, exec (.ldVxDt x) s = .next t ∧ t.reg x = s.dt ∧ t.pc = s.pc + 2 ∧
      ChangesOnly {.reg x, .pc} s t) ∧
    (∃ t, exec (.ldDtVx x) s = .next t ∧ t.dt = s.reg x ∧ t.pc = s.pc + 2 ∧
      ChangesOnly {.dt, .pc} s t) ∧
    (∃ t, exec (.ldStVx x) s = .next t ∧ t.st = s.reg x ∧ t.pc = s.pc + 2 ∧
      ChangesOnly {.st, .pc} s t)) ∧
  (∀ (s : State) (w : Word) (x : RegIx), FetchesWord s w →
    (decode w = .insn (.ldVxDt x) → ∃ t, step s = .next t ∧
      (t.reg x).toNat = s.dt.toNat - 1 ∧ t.dt.toNat = s.dt.toNat - 1) ∧
    (decode w = .insn (.ldDtVx x) → ∃ t, step s = .next t ∧ t.dt = s.reg x) ∧
    (decode w = .insn (.ldStVx x) → ∃ t, step s = .next t ∧ t.st = s.reg x))

/-- Fx0A with a key held writes its number; with none it writes one free `KeyNoneValue` byte (the
spec's D5; log 7: whatever byte it is). It never waits. -/
def Obligations.KeyReadNeverWaits : Prop :=
  DecodesRow 0xF0FF 0xF00A (fun w => .ldVxK (fieldX w)) ∧
  ∀ (x : RegIx) (s : State), ∃ t, exec (.ldVxK x) s = .next t ∧
    (∀ k, s.key = some k → (t.reg x).toNat = k.val ∧ t.keyDraws = s.keyDraws) ∧
    (s.key = none → t.reg x = Config.keyNoneValue s.keyDraws ∧ t.keyDraws = s.keyDraws + 1) ∧
    t.pc = s.pc + 2 ∧ ChangesOnly {.reg x, .keyDraws, .pc} s t

/-- On every step of a running machine, whatever word it fetches and whether or not it faults, each timer
is down by exactly 1, floor at zero, unless the word is the one instruction that writes that timer; a
step of a halted machine ticks neither (60_exceptions.md, Timer unit). That a faulting step keeps its
tick is the spec's decision D9 (log 3), that a halted step ticks none its decision D10 (log 4). -/
def Obligations.EveryStepTicksTimers : Prop :=
  (∀ s t : State, s.status = .running → step s = .next t →
    ((∀ w x, FetchesWord s w → decode w ≠ .insn (.ldDtVx x)) → t.dt.toNat = s.dt.toNat - 1) ∧
    ((∀ w x, FetchesWord s w → decode w ≠ .insn (.ldStVx x)) → t.st.toNat = s.st.toNat - 1)) ∧
  (∀ (s t : State) (e : Fault), s.status = .halted e → step s = .next t →
    t.dt = s.dt ∧ t.st = s.st)

/-- No instruction reads the sound timer: from states that differ only in ST, every instruction ends
in states that differ at most in ST (10_state.md, Timers). -/
def Obligations.SoundTimerIsNeverRead : Prop :=
  ∀ (i : Instr) (s t : State) (b : Byte), exec i s = .next t →
    ∃ u, exec i { s with st := b } = .next u ∧ { u with st := t.st } = t

/-- Only Ex9E, ExA1 and Fx0A read the key: from states that differ only in the key, every other
instruction ends in states that differ only in the key (10_state.md, Current key). -/
def Obligations.OnlyKeyInstructionsReadKey : Prop :=
  ∀ (i : Instr) (s t : State) (k : Option KeyIx),
    (∀ x, i ≠ .skp x ∧ i ≠ .sknp x ∧ i ≠ .ldVxK x) → exec i s = .next t →
    exec i { s with key := k } = .next { t with key := k }

/-! ### Who writes what (10_state.md R43) -/

/-- A register changes only under an instruction that names it as its destination, or, for VF, under
8xy4, 8xy5, 8xy6, 8xy7, 8xyE or Dxyn. -/
def Obligations.RegisterWriters : Prop :=
  ∀ (i : Instr) (s t : State) (r : RegIx), exec i s = .next t → t.reg r ≠ s.reg r →
    Instr.HasDestination i r ∨ (r = 15 ∧ Instr.SetsFlag i)

/-- I changes only under Annn, Fx1E, Fx29, Fx55 and Fx65. -/
def Obligations.IndexWriters : Prop :=
  ∀ (i : Instr) (s t : State), exec i s = .next t → t.i ≠ s.i →
    (∃ nnn, i = .ldINnn nnn) ∨
    (∃ x, i = .addIVx x ∨ i = .ldFVx x ∨ i = .ldMIVx x ∨ i = .ldVxMI x)

/-- A byte of memory changes only under Fx33 and Fx55. -/
def Obligations.MemoryWriters : Prop :=
  ∀ (i : Instr) (s t : State), exec i s = .next t → t.mem ≠ s.mem →
    ∃ x, i = .ldBVx x ∨ i = .ldMIVx x

/-- The stack changes only under 2nnn and 00EE. -/
def Obligations.StackWriters : Prop :=
  ∀ (i : Instr) (s t : State), exec i s = .next t → t.stack ≠ s.stack →
    i = .ret ∨ ∃ nnn, i = .call nnn

/-- R202: the framebuffer changes only under 00E0 and Dxyn: every other step leaves every pixel, and
the host's read answers the pixels of the state. -/
def Obligations.FramebufferPersists : Prop :=
  (∀ (i : Instr) (s t : State), exec i s = .next t → t.fb ≠ s.fb →
    i = .cls ∨ ∃ x y n, i = .drw x y n) ∧
  (∀ s t : State, step s = .next t →
    (∀ w, FetchesWord s w → decode w ≠ .insn .cls ∧ ∀ x y n, decode w ≠ .insn (.drw x y n)) →
    ∀ c q, hostReadPixel t c q = s.fb.pixel c q)

/-- No step writes the key latch, and the host's `set_key` overwrites it with the value given,
none or 0–15, and changes nothing else (10_state.md, Current key). -/
def Obligations.OnlyHostWritesKey : Prop :=
  (∀ s t : State, step s = .next t → t.key = s.key) ∧
  (∀ s : State, ∃ t, hostSetKey none s = .next t ∧ t.key = none ∧ ChangesOnly {.key} s t) ∧
  (∀ (s : State) (k : Nat) (h : k < 16), ∃ t, hostSetKey (some k) s = .next t ∧
    t.key = some ⟨k, h⟩ ∧ ChangesOnly {.key} s t)

/-- Only Cxkk takes bytes of the random source, one each time it runs; only Fx0A takes
`KeyNoneValue` bytes, and only when no key is held (the spec's D5, D21; logs 6, 7). -/
def Obligations.FreeDrawsAreCounted : Prop :=
  ∀ (i : Instr) (s t : State), exec i s = .next t →
    ((∃ x kk, i = .rnd x kk) → t.rngDraws = s.rngDraws + 1) ∧
    ((∀ x kk, i ≠ .rnd x kk) → t.rngDraws = s.rngDraws) ∧
    (t.keyDraws ≠ s.keyDraws → s.key = none ∧ ∃ x, i = .ldVxK x)

/-- PC after an instruction that did not halt is P + 2, but for the jumps, the call, the return and a
skip, which goes to P + 2 or P + 4; after one that halted it is P (30_encoding.md, the step cycle;
D9). -/
def Obligations.PcAfterInstruction : Prop :=
  ∀ (i : Instr) (s t : State), s.status = .running → exec i s = .next t →
    (t.status ≠ .running → t.pc = s.pc) ∧
    (t.status = .running → t.pc ≠ s.pc + 2 →
      i = .ret ∨ (∃ nnn, i = .jp nnn ∨ i = .jpV0 nnn ∨ i = .call nnn) ∨
      (t.pc = s.pc + 4 ∧ ∃ x, i = .skp x ∨ i = .sknp x ∨ (∃ kk, i = .seVxKk x kk ∨ i = .sneVxKk x kk) ∨
        ∃ y, i = .seVxVy x y ∨ i = .sneVxVy x y))

/-! ### The step (30_encoding.md, 60_exceptions.md) -/

/-- When the word at PC decodes to an instruction, a step is that instruction's meaning, run from the
state in which `started` is set, both timers have ticked and the result is Ok. -/
def Obligations.StepRunsDecodedInstruction : Prop :=
  ∀ (s : State) (w : Word) (i : Instr), FetchesWord s w → decode w = .insn i →
    step s = exec i
      { s with
        started := true
        dt := if s.dt = 0 then 0 else s.dt - 1
        st := if s.st = 0 then 0 else s.st - 1
        result := some .ok }

/-- An unmapped word warns, advances PC by 2, and changes nothing else but what every step does
(30_encoding.md, Unmapped encodings; the spec's decisions D3, D14; logs 5, 10). -/
def Obligations.UnknownWordIsNoOp : Prop :=
  ∀ (s : State) (w : Word), FetchesWord s w → decode w = .unknown w →
    ∃ t, step s = .next t ∧ t.result = some (.warn s.pc w) ∧ t.pc = s.pc + 2 ∧
      t.status = .running ∧ t.started = true ∧
      t.dt.toNat = s.dt.toNat - 1 ∧ t.st.toNat = s.st.toNat - 1 ∧
      ChangesOnly {.result, .pc, .started, .dt, .st} s t

/-- A running machine with PC at 0xFFF or above halts with MemoryFault at PC; only the timers have
ticked (20_memory.md, the fetch; the spec's decisions D9, D27; logs 3, 16). -/
def Obligations.FetchOutOfRangeHalts : Prop :=
  ∀ s : State, s.status = .running → 4096 ≤ s.pc.toNat + 1 →
    ∃ t, step s = .next t ∧ t.status = .halted (.memoryFault s.pc s.pc.toNat) ∧
      t.result = some (.err (.memoryFault s.pc s.pc.toNat)) ∧ t.started = true ∧
      t.dt.toNat = s.dt.toNat - 1 ∧ t.st.toNat = s.st.toNat - 1 ∧
      ChangesOnly {.status, .result, .started, .dt, .st} s t

/-- A halted machine stays as it is however often it is stepped: each step returns Err with the error
that halted it and changes nothing (60_exceptions.md, Halted state; the spec's decision D10, log 4). -/
def Obligations.HaltedMachineIsStuck : Prop :=
  ∀ (k : Nat) (s : State) (e : Fault), s.status = .halted e →
    core.run (k + 1) s = .next { s with result := some (.err e) }

/-- A step always answers a next state: the machine never faults or refuses; its fatal errors are in
the state (logs 3, 4). -/
def Obligations.StepAlwaysAnswersNext : Prop :=
  ∀ s : State, ∃ t, step s = .next t

/-- A step returns Ok, or a warning for the unmapped word it fetched at PC, and the machine runs on;
or it returns Err with the error the machine is halted with (60_exceptions.md, Step interface; the
spec's decision D14, log 5). -/
def Obligations.StepResultMatchesStatus : Prop :=
  ∀ s t : State, step s = .next t →
    (t.result = some .ok ∧ t.status = .running) ∨
    (∃ w, FetchesWord s w ∧ decode w = .unknown w ∧ t.result = some (.warn s.pc w) ∧
      t.status = .running) ∨
    (∃ e, t.result = some (.err e) ∧ t.status = .halted e)

/-! ### Reset, load and the end of a run (70_reset_and_hazards.md) -/

/-- Construction: PC is 0x200, the stack is empty, the machine runs; memory holds the 80 font bytes
(the parameter FONT, its glyph 0 the source's own; log 2) at 0x050 to 0x09F and zero elsewhere. -/
def Obligations.ResetMemoryAndPc : Prop :=
  State.reset.pc = 0x200 ∧ State.reset.stack = [] ∧ State.reset.status = .running ∧
  State.reset.started = false ∧ Config.font.length = 80 ∧
  Config.font.take 5 = [0xF0, 0x90, 0x90, 0x90, 0xF0] ∧
  ∀ a, State.reset.mem.get a =
    if 0x050 ≤ a ∧ a ≤ 0x09F then Config.font.getD (a - 0x050) 0 else 0

/-- Construction: every register, I and both timers are 0, every pixel is false, no key is held (the
spec's decision D4, log 1). -/
def Obligations.ResetRegistersAreZero : Prop :=
  (∀ x, State.reset.reg x = 0) ∧ State.reset.i = 0 ∧ State.reset.dt = 0 ∧ State.reset.st = 0 ∧
  (∀ c q, State.reset.fb.pixel c q = false) ∧ State.reset.key = none

/-- Before the first step, an image of at most 3584 bytes goes to 0x200 on and nothing else changes; a
longer one answers RomTooLarge and changes nothing; after a step, load is refused (the spec's decision
D20, log 17). -/
def Obligations.LoadCopiesImage : Prop :=
  (∀ (s : State) (bytes : List Byte), s.mem.wf = true → s.started = false → bytes.length ≤ 3584 →
    ∃ t, hostLoad bytes s = .next (.ok bytes.length, t) ∧
      (∀ j, j < bytes.length → t.mem.get (0x200 + j) = bytes.getD j 0) ∧
      ChangesOnly (Part.bytes 0x200 bytes.length) s t) ∧
  (∀ (s : State) (bytes : List Byte), s.started = false → 3584 < bytes.length →
    hostLoad bytes s = .next (.romTooLarge bytes.length, s)) ∧
  (∀ (s : State) (bytes : List Byte), s.started = true →
    hostLoad bytes s = .refused .loadAfterStart)

/-- From an idle end (a jump to itself) every number of steps leaves the machine at the same idle
end: only the timers, `started` and the step's result change (70_reset_and_hazards.md, End of a run;
the spec's decision D33). -/
def Obligations.IdleEndIsStable : Prop :=
  ∀ (k : Nat) (s : State), IdleEnd s → ∃ t : State, core.run k s = .next t ∧
    IdleEnd t ∧ t.dt.toNat = s.dt.toNat - k ∧ t.st.toNat = s.st.toNat - k ∧
    ChangesOnly {.dt, .st, .started, .result} s t

/-- With nothing loaded, the steps from construction run unmapped zero words up to 0xFFE, each with a
warning, and step 1793 halts with MemoryFault at 0x1000 (70_reset_and_hazards.md, Boot requirements). How
the warnings and the error are told is the model's choice (logs 3, 5), and so is that nothing is loaded
at reset (log 19). -/
def Obligations.UnloadedMachineRunsOff : Prop :=
  (∀ k, k ≤ 1792 → ∃ t : State, core.run k State.reset = .next t ∧ t.pc.toNat = 0x200 + 2 * k ∧
    (0 < k → t.result = some (.warn (BitVec.ofNat 16 (0x200 + 2 * k - 2)) 0)) ∧
    ChangesOnly {.pc, .started, .result} State.reset t) ∧
  (∃ t : State, core.run 1793 State.reset = .next t ∧
    t.status = .halted (.memoryFault 0x1000 0x1000))

/-! ### Invariants -/

/-- Construction meets the invariant and the bound on PC. -/
def Obligations.ResetMeetsInvariants : Prop := Inv State.reset ∧ PcBound State.reset

/-- Every step keeps the invariant, from every state that meets it. -/
def Obligations.StepKeepsInv : Prop :=
  ∀ s t : State, Inv s → step s = .next t → Inv t

/-- Every call of the host keeps the invariant, from every state that meets it. -/
def Obligations.HostCallKeepsInv : Prop :=
  ∀ (c : HostCall) (s t : State), Inv s → c.run s = .next t → Inv t

/-- Every step keeps the bound on PC and on the return addresses, so that no PC write ever wraps
(10_state.md, Program counter). -/
def Obligations.StepKeepsPcBound : Prop :=
  ∀ s t : State, PcBound s → step s = .next t → PcBound t

/-! ### Encoding (30_encoding.md) -/

/-- Decoding the word, or the bytes, of any well-formed instruction gives that instruction back. -/
def Obligations.DecodeOfEncode : Prop :=
  ∀ i : Instr, i.WellFormed → decode (encode i) = .insn i ∧
    ∀ rest, decodeBytes (encodeBytes i ++ rest) = .ok (i, rest)

/-- Each word has one meaning: whatever decodes is well-formed and encodes back to the same word. -/
def Obligations.EncodeOfDecode : Prop :=
  ∀ (w : Word) (i : Instr), decode w = .insn i → i.WellFormed ∧ encode i = w

/-- A word in a row of the opcode map decodes to that row's instruction with the fields of the word, and
a word in no row decodes to Unknown of itself (that every literal digit counts is the spec's decision
D3, log 10). -/
def Obligations.DecodeFollowsOpcodeMap : Prop :=
  (∀ r ∈ opcodeTable, ∀ w : Word, w &&& r.mask = r.pat → decode w = .insn (r.build w)) ∧
  (∀ w : Word, (∀ r ∈ opcodeTable, w &&& r.mask ≠ r.pat) → decode w = .unknown w)

/-- The 34 rows of the opcode map are disjoint: no word is in two of them. -/
def Obligations.OpcodeRowsAreDisjoint : Prop :=
  opcodeTable.length = 34 ∧
  opcodeTable.Pairwise fun r r' => ∀ w : Word, ¬ (w &&& r.mask = r.pat ∧ w &&& r'.mask = r'.pat)

/-- A word of each instruction file, written out from its row, decodes to its instruction. -/
def Obligations.SampleWordsDecode : Prop :=
  decode 0b0010001000010000 = .insn (.call 0x210) ∧
  decode 0b0100001100010001 = .insn (.sneVxKk 3 0x11) ∧
  decode 0b1000000100100111 = .insn (.subn 1 2) ∧
  decode 0b1111001001010101 = .insn (.ldMIVx 2) ∧
  decode 0b1101010001000101 = .insn (.drw 4 4 5) ∧
  decode 0b1111001100000111 = .insn (.ldVxDt 3)
end

