-- ==== Sys2Proof/Laws/Decode.lean ====
section
/-! SUPPORT. The fields of a word as numbers, and what each row of the opcode map (30_encoding.md R83)
decodes to. -/

namespace Sys2Proof

open Machine (DecodesRow)

/-! ### Fields -/

/-- A field as arithmetic on the word's number. -/
theorem bitField_eq (w : Word) (lo len : Nat) : bitField w lo len = w.toNat / 2 ^ lo % 2 ^ len := by
  simp [bitField, BitVec.extractLsb'_toNat, Nat.shiftRight_eq_div_pow]

theorem fieldFamily_eq (w : Word) : fieldFamily w = w.toNat / 4096 % 16 := bitField_eq w 12 4

theorem fieldX_val (w : Word) : (fieldX w).val = w.toNat / 256 % 16 := by
  have h := bitField_eq w 8 4
  simp only [fieldX, Fin.ofNat, h]
  omega

theorem fieldY_val (w : Word) : (fieldY w).val = w.toNat / 16 % 16 := by
  have h := bitField_eq w 4 4
  simp only [fieldY, Fin.ofNat, h]
  omega

theorem fieldN_eq (w : Word) : fieldN w = w.toNat % 16 := by
  have h := bitField_eq w 0 4
  simpa [fieldN] using h

theorem fieldLow_eq (w : Word) : fieldLow w = w.toNat % 256 := by
  have h := bitField_eq w 0 8
  simpa [fieldLow] using h

theorem fieldKk_toNat (w : Word) : (fieldKk w).toNat = w.toNat % 256 := by
  simp [fieldKk, BitVec.extractLsb'_toNat]

theorem fieldNnn_toNat (w : Word) : (fieldNnn w).toNat = w.toNat % 4096 := by
  simp only [fieldNnn, BitVec.toNat_setWidth, BitVec.extractLsb'_toNat, Nat.shiftRight_zero]
  omega

/-- The word of two bytes: the byte at the lower address counts 256 (R80). -/
theorem composeWord_toNat (hi lo : Byte) : (composeWord hi lo).toNat = hi.toNat * 256 + lo.toNat := by
  have h1 := hi.isLt
  have h2 := lo.isLt
  simp only [composeWord, BitVec.toNat_or, BitVec.toNat_shiftLeft, BitVec.toNat_setWidth]
  rw [Nat.mod_eq_of_lt (show hi.toNat < 2 ^ 16 by omega), Nat.mod_eq_of_lt (show lo.toNat < 2 ^ 16 by omega),
    Nat.mod_eq_of_lt (show hi.toNat <<< 8 < 2 ^ 16 by rw [Nat.shiftLeft_eq]; omega),
    ← Nat.shiftLeft_add_eq_or_of_lt h2, Nat.shiftLeft_eq]

theorem highByte_toNat (w : Word) : (highByte w).toNat = w.toNat / 256 := by
  have := w.isLt
  simp only [highByte, BitVec.extractLsb'_toNat, Nat.shiftRight_eq_div_pow]
  omega

theorem lowByte_toNat (w : Word) : (lowByte w).toNat = w.toNat % 256 := by
  simp [lowByte, BitVec.extractLsb'_toNat]

/-- A word stored as its two bytes reads back as itself. -/
@[simp] theorem composeWord_bytes (w : Word) : composeWord (highByte w) (lowByte w) = w := by
  apply BitVec.eq_of_toNat_eq
  rw [composeWord_toNat, highByte_toNat, lowByte_toNat]
  omega

/-! ### The masks of the opcode map -/

theorem and_mask_F000 (w : Word) : (w &&& 0xF000).toNat = w.toNat / 4096 * 4096 := by
  have h : w &&& 0xF000#16 = (w >>> 12) <<< 12 := by
    apply BitVec.eq_of_getLsbD_eq
    intro i hi
    have hbits : ∀ k : Fin 16, (0xF000#16).getLsbD k.val = decide (12 ≤ k.val) := by decide
    have hbit : (0xF000#16).getLsbD i = decide (12 ≤ i) := hbits ⟨i, hi⟩
    rw [BitVec.getLsbD_and, BitVec.getLsbD_shiftLeft, BitVec.getLsbD_ushiftRight, hbit]
    by_cases h12 : 12 ≤ i
    · simp [h12, hi, Nat.not_lt.mpr h12]
    · simp [h12]
  have hw := w.isLt
  change (w &&& 0xF000#16).toNat = _
  rw [h, BitVec.toNat_shiftLeft, BitVec.toNat_ushiftRight, Nat.shiftRight_eq_div_pow, Nat.shiftLeft_eq]
  omega

theorem and_mask_00FF (w : Word) : (w &&& 0x00FF).toNat = w.toNat % 256 := by
  have h := Nat.and_two_pow_sub_one_eq_mod w.toNat 8
  simpa [BitVec.toNat_and] using h

theorem and_mask_000F (w : Word) : (w &&& 0x000F).toNat = w.toNat % 16 := by
  have h := Nat.and_two_pow_sub_one_eq_mod w.toNat 4
  simpa [BitVec.toNat_and] using h

theorem and_mask_F00F (w : Word) : (w &&& 0xF00F).toNat = w.toNat / 4096 * 4096 + w.toNat % 16 := by
  have h : w &&& 0xF00F = (w &&& 0xF000) ||| (w &&& 0x000F) := by
    rw [← BitVec.and_or_distrib_left]; rfl
  rw [h, BitVec.toNat_or, and_mask_F000, and_mask_000F, show 4096 = 2 ^ 12 from rfl, ← Nat.shiftLeft_eq,
    ← Nat.shiftLeft_add_eq_or_of_lt (by omega)]

theorem and_mask_F0FF (w : Word) : (w &&& 0xF0FF).toNat = w.toNat / 4096 * 4096 + w.toNat % 256 := by
  have h : w &&& 0xF0FF = (w &&& 0xF000) ||| (w &&& 0x00FF) := by
    rw [← BitVec.and_or_distrib_left]; rfl
  rw [h, BitVec.toNat_or, and_mask_F000, and_mask_00FF, show 4096 = 2 ^ 12 from rfl, ← Nat.shiftLeft_eq,
    ← Nat.shiftLeft_add_eq_or_of_lt (by omega)]

/-- A match under the mask F000 fixes the family. -/
theorem family_of_mask_F000 {w : Word} {p : Word} (h : w &&& 0xF000 = p) :
    w.toNat / 4096 * 4096 = p.toNat := by rw [← h, and_mask_F000]

/-- A match under the mask F00F fixes the family and the low nibble. -/
theorem fields_of_mask_F00F {w : Word} {p : Word} (h : w &&& 0xF00F = p) :
    w.toNat / 4096 * 4096 = p.toNat / 4096 * 4096 ∧ w.toNat % 16 = p.toNat % 16 := by
  have := w.isLt
  rw [← h, and_mask_F00F]
  omega

/-- A match under the mask F0FF fixes the family and the low byte. -/
theorem fields_of_mask_F0FF {w : Word} {p : Word} (h : w &&& 0xF0FF = p) :
    w.toNat / 4096 * 4096 = p.toNat / 4096 * 4096 ∧ w.toNat % 256 = p.toNat % 256 := by
  have := w.isLt
  rw [← h, and_mask_F0FF]
  omega

theorem family_digit {w : Word} {f : Nat} (h : w.toNat / 4096 * 4096 = f * 4096) : fieldFamily w = f := by
  have := w.isLt
  rw [fieldFamily_eq]
  omega

/-! ### What each row decodes to -/

theorem decode_cls : decode 0x00E0 = .insn .cls := by decide

theorem decode_ret : decode 0x00EE = .insn .ret := by decide

theorem decodesRow_jp : DecodesRow 0xF000 0x1000 (fun w => .jp (fieldNnn w)) := by
  intro w h
  have hf : fieldFamily w = 0x1 := family_digit (family_of_mask_F000 h)
  simp only [decode, hf]

theorem decodesRow_jpV0 : DecodesRow 0xF000 0xB000 (fun w => .jpV0 (fieldNnn w)) := by
  intro w h
  have hf : fieldFamily w = 0xB := family_digit (family_of_mask_F000 h)
  simp only [decode, hf]

theorem decodesRow_call : DecodesRow 0xF000 0x2000 (fun w => .call (fieldNnn w)) := by
  intro w h
  have hf : fieldFamily w = 0x2 := family_digit (family_of_mask_F000 h)
  simp only [decode, hf]

theorem decodesRow_seVxKk : DecodesRow 0xF000 0x3000 (fun w => .seVxKk (fieldX w) (fieldKk w)) := by
  intro w h
  have hf : fieldFamily w = 0x3 := family_digit (family_of_mask_F000 h)
  simp only [decode, hf]

theorem decodesRow_sneVxKk : DecodesRow 0xF000 0x4000 (fun w => .sneVxKk (fieldX w) (fieldKk w)) := by
  intro w h
  have hf : fieldFamily w = 0x4 := family_digit (family_of_mask_F000 h)
  simp only [decode, hf]

theorem decodesRow_seVxVy : DecodesRow 0xF00F 0x5000 (fun w => .seVxVy (fieldX w) (fieldY w)) := by
  intro w h
  obtain ⟨h1, h2⟩ := fields_of_mask_F00F h
  have hf : fieldFamily w = 0x5 := family_digit h1
  have hn : fieldN w = 0x0 := by rw [fieldN_eq]; exact h2
  simp only [decode, hf, decodeFamily5, hn]

theorem decodesRow_sneVxVy : DecodesRow 0xF00F 0x9000 (fun w => .sneVxVy (fieldX w) (fieldY w)) := by
  intro w h
  obtain ⟨h1, h2⟩ := fields_of_mask_F00F h
  have hf : fieldFamily w = 0x9 := family_digit h1
  have hn : fieldN w = 0x0 := by rw [fieldN_eq]; exact h2
  simp only [decode, hf, decodeFamily9, hn]

theorem decodesRow_ldVxKk : DecodesRow 0xF000 0x6000 (fun w => .ldVxKk (fieldX w) (fieldKk w)) := by
  intro w h
  have hf : fieldFamily w = 0x6 := family_digit (family_of_mask_F000 h)
  simp only [decode, hf]

theorem decodesRow_addVxKk : DecodesRow 0xF000 0x7000 (fun w => .addVxKk (fieldX w) (fieldKk w)) := by
  intro w h
  have hf : fieldFamily w = 0x7 := family_digit (family_of_mask_F000 h)
  simp only [decode, hf]

theorem decodesRow_ldVxVy : DecodesRow 0xF00F 0x8000 (fun w => .ldVxVy (fieldX w) (fieldY w)) := by
  intro w h
  obtain ⟨h1, h2⟩ := fields_of_mask_F00F h
  have hf : fieldFamily w = 0x8 := family_digit h1
  have hn : fieldN w = 0x0 := by rw [fieldN_eq]; exact h2
  simp only [decode, hf, decodeFamily8, hn]

theorem decodesRow_orVxVy : DecodesRow 0xF00F 0x8001 (fun w => .orVxVy (fieldX w) (fieldY w)) := by
  intro w h
  obtain ⟨h1, h2⟩ := fields_of_mask_F00F h
  have hf : fieldFamily w = 0x8 := family_digit h1
  have hn : fieldN w = 0x1 := by rw [fieldN_eq]; exact h2
  simp only [decode, hf, decodeFamily8, hn]

theorem decodesRow_andVxVy : DecodesRow 0xF00F 0x8002 (fun w => .andVxVy (fieldX w) (fieldY w)) := by
  intro w h
  obtain ⟨h1, h2⟩ := fields_of_mask_F00F h
  have hf : fieldFamily w = 0x8 := family_digit h1
  have hn : fieldN w = 0x2 := by rw [fieldN_eq]; exact h2
  simp only [decode, hf, decodeFamily8, hn]

theorem decodesRow_xorVxVy : DecodesRow 0xF00F 0x8003 (fun w => .xorVxVy (fieldX w) (fieldY w)) := by
  intro w h
  obtain ⟨h1, h2⟩ := fields_of_mask_F00F h
  have hf : fieldFamily w = 0x8 := family_digit h1
  have hn : fieldN w = 0x3 := by rw [fieldN_eq]; exact h2
  simp only [decode, hf, decodeFamily8, hn]

theorem decodesRow_addVxVy : DecodesRow 0xF00F 0x8004 (fun w => .addVxVy (fieldX w) (fieldY w)) := by
  intro w h
  obtain ⟨h1, h2⟩ := fields_of_mask_F00F h
  have hf : fieldFamily w = 0x8 := family_digit h1
  have hn : fieldN w = 0x4 := by rw [fieldN_eq]; exact h2
  simp only [decode, hf, decodeFamily8, hn]

theorem decodesRow_sub : DecodesRow 0xF00F 0x8005 (fun w => .sub (fieldX w) (fieldY w)) := by
  intro w h
  obtain ⟨h1, h2⟩ := fields_of_mask_F00F h
  have hf : fieldFamily w = 0x8 := family_digit h1
  have hn : fieldN w = 0x5 := by rw [fieldN_eq]; exact h2
  simp only [decode, hf, decodeFamily8, hn]

theorem decodesRow_shr : DecodesRow 0xF00F 0x8006 (fun w => .shr (fieldX w) (fieldY w)) := by
  intro w h
  obtain ⟨h1, h2⟩ := fields_of_mask_F00F h
  have hf : fieldFamily w = 0x8 := family_digit h1
  have hn : fieldN w = 0x6 := by rw [fieldN_eq]; exact h2
  simp only [decode, hf, decodeFamily8, hn]

theorem decodesRow_subn : DecodesRow 0xF00F 0x8007 (fun w => .subn (fieldX w) (fieldY w)) := by
  intro w h
  obtain ⟨h1, h2⟩ := fields_of_mask_F00F h
  have hf : fieldFamily w = 0x8 := family_digit h1
  have hn : fieldN w = 0x7 := by rw [fieldN_eq]; exact h2
  simp only [decode, hf, decodeFamily8, hn]

theorem decodesRow_shl : DecodesRow 0xF00F 0x800E (fun w => .shl (fieldX w) (fieldY w)) := by
  intro w h
  obtain ⟨h1, h2⟩ := fields_of_mask_F00F h
  have hf : fieldFamily w = 0x8 := family_digit h1
  have hn : fieldN w = 0xE := by rw [fieldN_eq]; exact h2
  simp only [decode, hf, decodeFamily8, hn]

theorem decodesRow_ldINnn : DecodesRow 0xF000 0xA000 (fun w => .ldINnn (fieldNnn w)) := by
  intro w h
  have hf : fieldFamily w = 0xA := family_digit (family_of_mask_F000 h)
  simp only [decode, hf]

theorem decodesRow_rnd : DecodesRow 0xF000 0xC000 (fun w => .rnd (fieldX w) (fieldKk w)) := by
  intro w h
  have hf : fieldFamily w = 0xC := family_digit (family_of_mask_F000 h)
  simp only [decode, hf]

theorem decodesRow_drw : DecodesRow 0xF000 0xD000 (fun w => .drw (fieldX w) (fieldY w) (fieldN w)) := by
  intro w h
  have hf : fieldFamily w = 0xD := family_digit (family_of_mask_F000 h)
  simp only [decode, hf]

theorem decodesRow_skp : DecodesRow 0xF0FF 0xE09E (fun w => .skp (fieldX w)) := by
  intro w h
  obtain ⟨h1, h2⟩ := fields_of_mask_F0FF h
  have hf : fieldFamily w = 0xE := family_digit h1
  have hl : fieldLow w = 0x9E := by rw [fieldLow_eq]; exact h2
  simp only [decode, hf, decodeFamilyE, hl]

theorem decodesRow_sknp : DecodesRow 0xF0FF 0xE0A1 (fun w => .sknp (fieldX w)) := by
  intro w h
  obtain ⟨h1, h2⟩ := fields_of_mask_F0FF h
  have hf : fieldFamily w = 0xE := family_digit h1
  have hl : fieldLow w = 0xA1 := by rw [fieldLow_eq]; exact h2
  simp only [decode, hf, decodeFamilyE, hl]

theorem decodesRow_ldVxDt : DecodesRow 0xF0FF 0xF007 (fun w => .ldVxDt (fieldX w)) := by
  intro w h
  obtain ⟨h1, h2⟩ := fields_of_mask_F0FF h
  have hf : fieldFamily w = 0xF := family_digit h1
  have hl : fieldLow w = 0x07 := by rw [fieldLow_eq]; exact h2
  simp only [decode, hf, decodeFamilyF, hl]

theorem decodesRow_ldVxK : DecodesRow 0xF0FF 0xF00A (fun w => .ldVxK (fieldX w)) := by
  intro w h
  obtain ⟨h1, h2⟩ := fields_of_mask_F0FF h
  have hf : fieldFamily w = 0xF := family_digit h1
  have hl : fieldLow w = 0x0A := by rw [fieldLow_eq]; exact h2
  simp only [decode, hf, decodeFamilyF, hl]

theorem decodesRow_ldDtVx : DecodesRow 0xF0FF 0xF015 (fun w => .ldDtVx (fieldX w)) := by
  intro w h
  obtain ⟨h1, h2⟩ := fields_of_mask_F0FF h
  have hf : fieldFamily w = 0xF := family_digit h1
  have hl : fieldLow w = 0x15 := by rw [fieldLow_eq]; exact h2
  simp only [decode, hf, decodeFamilyF, hl]

theorem decodesRow_ldStVx : DecodesRow 0xF0FF 0xF018 (fun w => .ldStVx (fieldX w)) := by
  intro w h
  obtain ⟨h1, h2⟩ := fields_of_mask_F0FF h
  have hf : fieldFamily w = 0xF := family_digit h1
  have hl : fieldLow w = 0x18 := by rw [fieldLow_eq]; exact h2
  simp only [decode, hf, decodeFamilyF, hl]

theorem decodesRow_addIVx : DecodesRow 0xF0FF 0xF01E (fun w => .addIVx (fieldX w)) := by
  intro w h
  obtain ⟨h1, h2⟩ := fields_of_mask_F0FF h
  have hf : fieldFamily w = 0xF := family_digit h1
  have hl : fieldLow w = 0x1E := by rw [fieldLow_eq]; exact h2
  simp only [decode, hf, decodeFamilyF, hl]

theorem decodesRow_ldFVx : DecodesRow 0xF0FF 0xF029 (fun w => .ldFVx (fieldX w)) := by
  intro w h
  obtain ⟨h1, h2⟩ := fields_of_mask_F0FF h
  have hf : fieldFamily w = 0xF := family_digit h1
  have hl : fieldLow w = 0x29 := by rw [fieldLow_eq]; exact h2
  simp only [decode, hf, decodeFamilyF, hl]

theorem decodesRow_ldBVx : DecodesRow 0xF0FF 0xF033 (fun w => .ldBVx (fieldX w)) := by
  intro w h
  obtain ⟨h1, h2⟩ := fields_of_mask_F0FF h
  have hf : fieldFamily w = 0xF := family_digit h1
  have hl : fieldLow w = 0x33 := by rw [fieldLow_eq]; exact h2
  simp only [decode, hf, decodeFamilyF, hl]

theorem decodesRow_ldMIVx : DecodesRow 0xF0FF 0xF055 (fun w => .ldMIVx (fieldX w)) := by
  intro w h
  obtain ⟨h1, h2⟩ := fields_of_mask_F0FF h
  have hf : fieldFamily w = 0xF := family_digit h1
  have hl : fieldLow w = 0x55 := by rw [fieldLow_eq]; exact h2
  simp only [decode, hf, decodeFamilyF, hl]

theorem decodesRow_ldVxMI : DecodesRow 0xF0FF 0xF065 (fun w => .ldVxMI (fieldX w)) := by
  intro w h
  obtain ⟨h1, h2⟩ := fields_of_mask_F0FF h
  have hf : fieldFamily w = 0xF := family_digit h1
  have hl : fieldLow w = 0x65 := by rw [fieldLow_eq]; exact h2
  simp only [decode, hf, decodeFamilyF, hl]

/-- `Unknown` carries the word that was decoded (30_encoding.md R84). -/
theorem decode_unknown {w w' : Word} (h : decode w = .unknown w') : w' = w := by
  unfold decode decodeFamily0 decodeFamily5 decodeFamily8 decodeFamily9 decodeFamilyE decodeFamilyF at h
  split at h <;> first
    | (cases h; rfl)
    | cases h
    | (split at h <;> cases h; rfl)

/-! ### The words that the encoder makes -/

theorem wordFNnn_toNat {f : Nat} {nnn : Word} (hf : f < 16) (h : nnn.toNat < 4096) :
    (wordFNnn f nnn).toNat = f * 4096 + nnn.toNat := by
  simp only [wordFNnn, BitVec.toNat_ofNat]
  omega

theorem wordFXKk_toNat {f kk : Nat} (x : RegIx) (hf : f < 16) (h : kk < 256) :
    (wordFXKk f x kk).toNat = f * 4096 + x.val * 256 + kk := by
  have := x.isLt
  simp only [wordFXKk, BitVec.toNat_ofNat]
  omega

theorem wordFXYN_toNat {f n : Nat} (x y : RegIx) (hf : f < 16) (h : n < 16) :
    (wordFXYN f x y n).toNat = f * 4096 + x.val * 256 + y.val * 16 + n := by
  have := x.isLt
  have := y.isLt
  simp only [wordFXYN, wordOfDigits, BitVec.toNat_ofNat]
  omega

end Sys2Proof
end

