-- ==== Sys2Proof/Laws/Framebuffer.lean ====
section
/-! SUPPORT. The laws of the framebuffer: a pixel after a write, after a clear, after a toggle. -/

namespace Sys2Proof.Machine

@[simp] theorem Framebuffer.clear_pixel (c : Col) (q : Row) : Framebuffer.clear.pixel c q = false := by
  simp [Framebuffer.clear, Framebuffer.pixel]

/-- A pixel after one pixel is written: the value written there, every other pixel as before. -/
theorem Framebuffer.pixel_setPixel (fb : Framebuffer) (c c' : Col) (q q' : Row) (b : Bool) :
    (fb.setPixel c q b).pixel c' q' = if c' = c ∧ q' = q then b else fb.pixel c' q' := by
  unfold Framebuffer.setPixel Framebuffer.pixel
  by_cases hq : q' = q
  · subst hq
    by_cases hc : c' = c
    · subst hc; simp
    · have : c.val ≠ c'.val := fun e => hc (Fin.ext e.symm)
      simp [hc, this]
  · have : q.val ≠ q'.val := fun e => hq (Fin.ext e.symm)
    simp [hq, this]

/-- The pixels after a toggle: the one named is inverted, every other one as before. -/
theorem Blit.toggle_pixel (p : Blit) (c c' : Col) (q q' : Row) :
    (p.toggle c q).fb.pixel c' q' =
      if c' = c ∧ q' = q then !p.fb.pixel c q else p.fb.pixel c' q' := by
  simp [Blit.toggle, Framebuffer.pixel_setPixel]

/-- A toggle finds a collision when its pixel was set. -/
theorem Blit.toggle_coll (p : Blit) (c : Col) (q : Row) :
    (p.toggle c q).coll = (p.fb.pixel c q || p.coll) := rfl

@[simp] theorem wrapCol_val (k : Nat) : (wrapCol k).val = k % 64 := rfl

@[simp] theorem wrapRow_val (k : Nat) : (wrapRow k).val = k % 32 := rfl

/-- Two framebuffers with the same pixels are equal. -/
theorem Framebuffer.ext_pixel {fb fb' : Framebuffer} (h : ∀ c q, fb.pixel c q = fb'.pixel c q) :
    fb = fb' := by
  apply Vector.ext
  intro q hq
  apply Vector.ext
  intro c hc
  exact h ⟨c, hc⟩ ⟨q, hq⟩

/-! ### The sprite-blit unit (44_display.md R201) -/

/-- What one row of a sprite does, from bit offset `b` on: it inverts the pixels of its 1 bits, leaves
every other pixel, and finds a collision exactly when one of them was set. -/
theorem Blit.rowBits_spec (bits : Byte) (ox : Nat) (q : Row) (left : Nat) :
    ∀ (b : Nat) (p : Blit), b + left ≤ 8 →
    let lit := fun (c : Col) (q' : Row) => q' = q ∧ ∃ k, b ≤ k ∧ k < b + left ∧ bits.getLsbD (7 - k) = true ∧ c.val = (ox + k) % 64
    (∀ c q', lit c q' → (Blit.rowBits bits ox q b left p).fb.pixel c q' = !p.fb.pixel c q') ∧
    (∀ c q', ¬ lit c q' → (Blit.rowBits bits ox q b left p).fb.pixel c q' = p.fb.pixel c q') ∧
    ((Blit.rowBits bits ox q b left p).coll = true ↔ p.coll = true ∨ ∃ c q', lit c q' ∧ p.fb.pixel c q' = true) := by
  induction left with
  | zero =>
    intro b p _
    refine ⟨?_, ?_, ?_⟩
    · rintro c q' ⟨_, k, h1, h2, _⟩; omega
    · intros; rfl
    · simp only [Blit.rowBits]
      constructor
      · exact .inl
      · rintro (h | ⟨c, q', ⟨_, k, h1, h2, _⟩, _⟩)
        · exact h
        · omega
  | succ left ih =>
    intro b p hb
    obtain ⟨i1, i2, i3⟩ := ih (b+1) (if bits.getLsbD (7 - b) then p.toggle (wrapCol (ox + b)) q else p) (by omega)
    simp only at i1 i2 i3 ⊢
    simp only [Blit.rowBits]
    by_cases hbit : bits.getLsbD (7 - b) = true
    · simp only [hbit, if_true] at i1 i2 i3 ⊢
      have hc : ∀ c : Col, c = wrapCol (ox+b) ↔ c.val = (ox+b)%64 := fun c => by rw [Fin.ext_iff]; simp
      refine ⟨?_, ?_, ?_⟩
      · rintro c q' ⟨rfl, k, h1, h2, h3, h4⟩
        by_cases hk : k = b
        · subst hk
          have hn : ¬ (q' = q' ∧ ∃ k', k + 1 ≤ k' ∧ k' < k + 1 + left ∧ bits.getLsbD (7 - k') = true ∧ c.val = (ox + k') % 64) := by
            rintro ⟨_, k', h5, h6, _, h8⟩; omega
          rw [i2 c q' hn, Blit.toggle_pixel, if_pos ⟨(hc c).mpr h4, rfl⟩, (hc c).mpr h4]
        · rw [i1 c q' ⟨rfl, k, by omega, by omega, h3, h4⟩, Blit.toggle_pixel, if_neg]
          rintro ⟨e, _⟩; rw [hc] at e; omega
      · intro c q' hn
        rw [i2 c q' (by rintro ⟨e, k, h1, h2, h3⟩; exact hn ⟨e, k, by omega, by omega, h3⟩), Blit.toggle_pixel, if_neg]
        rintro ⟨e, e2⟩; rw [hc] at e; exact hn ⟨e2, b, le_refl _, by omega, hbit, e⟩
      · rw [i3, Blit.toggle_coll, Bool.or_eq_true]
        constructor
        · rintro ((h | h) | ⟨c, q', ⟨e, k, h1, h2, h3, h4⟩, hp⟩)
          · exact .inr ⟨_, _, ⟨rfl, b, le_refl _, by omega, hbit, by simp⟩, h⟩
          · exact .inl h
          · refine .inr ⟨c, q', ⟨e, k, by omega, by omega, h3, h4⟩, ?_⟩
            rw [Blit.toggle_pixel, if_neg] at hp
            · exact hp
            · rintro ⟨e, _⟩; rw [hc] at e; omega
        · rintro (h | ⟨c, q', ⟨e, k, h1, h2, h3, h4⟩, hp⟩)
          · exact .inl (.inr h)
          · by_cases hk : k = b
            · subst hk; rw [← hc] at h4; subst h4; subst e; exact .inl (.inl hp)
            · refine .inr ⟨c, q', ⟨e, k, by omega, by omega, h3, h4⟩, ?_⟩
              rw [Blit.toggle_pixel, if_neg]
              · exact hp
              · rintro ⟨e, _⟩; rw [hc] at e; omega
    · simp only [hbit] at i1 i2 i3 ⊢
      have hl : ∀ (c : Col) (q' : Row), (q' = q ∧ ∃ k, b ≤ k ∧ k < b + (left + 1) ∧ bits.getLsbD (7 - k) = true ∧ c.val = (ox + k) % 64) ↔ (q' = q ∧ ∃ k, b + 1 ≤ k ∧ k < b + 1 + left ∧ bits.getLsbD (7 - k) = true ∧ c.val = (ox + k) % 64) := by
        intro c q'
        constructor
        · rintro ⟨e, k, h1, h2, h3, h4⟩
          refine ⟨e, k, ?_, by omega, h3, h4⟩
          rcases Nat.lt_or_ge b k with h | h
          · omega
          · have : k = b := by omega
            subst this; exact absurd h3 hbit
        · rintro ⟨e, k, h1, h2, h3⟩; exact ⟨e, k, by omega, by omega, h3⟩
      simp only [hl]
      exact ⟨i1, i2, i3⟩

/-- What the rows of a sprite do, from row offset `r` on (at most 32 rows, so that no two fall on the
same one): the pixels of the 1 bits are inverted, every other pixel is left, and a collision is found
exactly when one of them was set. -/
theorem Blit.rows_spec (ox oy : Nat) (bs : List Byte) :
    ∀ (r : Nat) (p : Blit), r + bs.length ≤ 32 →
    let lit := fun (c : Col) (q : Row) => ∃ j b, r ≤ j ∧ j < r + bs.length ∧ b < 8 ∧ (bs.getD (j - r) 0).getLsbD (7 - b) = true ∧ c.val = (ox + b) % 64 ∧ q.val = (oy + j) % 32
    (∀ c q, lit c q → (Blit.rows ox oy r bs p).fb.pixel c q = !p.fb.pixel c q) ∧
    (∀ c q, ¬ lit c q → (Blit.rows ox oy r bs p).fb.pixel c q = p.fb.pixel c q) ∧
    ((Blit.rows ox oy r bs p).coll = true ↔ p.coll = true ∨ ∃ c q, lit c q ∧ p.fb.pixel c q = true) := by
  induction bs with
  | nil =>
    intro r p _
    refine ⟨?_, ?_, ?_⟩
    · rintro c q ⟨j, b, h1, h2, _⟩; simp at h2; omega
    · intros; rfl
    · simp only [Blit.rows]
      constructor
      · exact .inl
      · rintro (h | ⟨c, q', ⟨j, b, h1, h2, _⟩, _⟩)
        · exact h
        · simp at h2; omega
  | cons u us ih =>
    intro r p hr
    simp only [List.length_cons] at hr
    obtain ⟨a1, a2, a3⟩ := Blit.rowBits_spec u ox (wrapRow (oy + r)) 8 0 p (by omega)
    obtain ⟨i1, i2, i3⟩ := ih (r+1) (Blit.rowBits u ox (wrapRow (oy + r)) 0 8 p) (by omega)
    simp only at a1 a2 a3 i1 i2 i3 ⊢
    simp only [Blit.rows, List.length_cons]
    have hd : ∀ j, r + 1 ≤ j → (u :: us).getD (j - r) 0 = us.getD (j - (r+1)) 0 := by
      intro j hj; rw [show j - r = (j - (r+1)) + 1 by omega, List.getD_cons_succ]
    have hq : ∀ q : Row, q = wrapRow (oy + r) ↔ q.val = (oy + r) % 32 := fun q => by rw [Fin.ext_iff]; simp
    let L1 := fun (c : Col) (q : Row) => q = wrapRow (oy + r) ∧ ∃ k, 0 ≤ k ∧ k < 0 + 8 ∧ u.getLsbD (7 - k) = true ∧ c.val = (ox + k) % 64
    let L2 := fun (c : Col) (q : Row) => ∃ j b, r + 1 ≤ j ∧ j < r + 1 + us.length ∧ b < 8 ∧ (us.getD (j - (r+1)) 0).getLsbD (7 - b) = true ∧ c.val = (ox + b) % 64 ∧ q.val = (oy + j) % 32
    have hL : ∀ c q, (∃ j b, r ≤ j ∧ j < r + (us.length + 1) ∧ b < 8 ∧ ((u::us).getD (j - r) 0).getLsbD (7 - b) = true ∧ c.val = (ox + b) % 64 ∧ q.val = (oy + j) % 32) ↔ (L1 c q ∨ L2 c q) := by
      intro c q
      constructor
      · rintro ⟨j, b, h1, h2, h3, h4, h5, h6⟩
        by_cases hj : j = r
        · subst hj; left; exact ⟨(hq q).mpr h6, b, by omega, by omega, by simpa using h4, h5⟩
        · right; rw [hd j (by omega)] at h4; exact ⟨j, b, by omega, by omega, h3, h4, h5, h6⟩
      · rintro (⟨e, k, h1, h2, h3, h4⟩ | ⟨j, b, h1, h2, h3, h4, h5, h6⟩)
        · exact ⟨r, k, by omega, by omega, by omega, by simpa using h3, h4, (hq q).mp e⟩
        · exact ⟨j, b, by omega, by omega, h3, by rw [hd j (by omega)]; exact h4, h5, h6⟩
    have hdis : ∀ c q, L1 c q → ¬ L2 c q := by
      rintro c q ⟨e, _⟩ ⟨j, b, h1, h2, h3, h4, h5, h6⟩
      rw [hq] at e; omega
    simp only [hL]
    refine ⟨?_, ?_, ?_⟩
    · rintro c q (h | h)
      · rw [i2 c q (hdis c q h), a1 c q h]
      · rw [i1 c q h, a2 c q (fun h' => hdis c q h' h)]
    · intro c q h
      rw [i2 c q (fun h' => h (.inr h')), a2 c q (fun h' => h (.inl h'))]
    · rw [i3, a3]
      constructor
      · rintro ((h | ⟨c, q, h1, h2⟩) | ⟨c, q, h1, h2⟩)
        · exact .inl h
        · exact .inr ⟨c, q, .inl h1, h2⟩
        · rw [a2 c q (fun h' => hdis c q h' h1)] at h2; exact .inr ⟨c, q, .inr h1, h2⟩
      · rintro (h | ⟨c, q, h1 | h1, h2⟩)
        · exact .inl (.inl h)
        · exact .inl (.inr ⟨c, q, h1, h2⟩)
        · exact .inr ⟨c, q, h1, by rw [a2 c q (fun h' => hdis c q h' h1)]; exact h2⟩

end Sys2Proof.Machine
end

