-- ==== Sys2Proof/Laws/Memory.lean ====
section
/-! SUPPORT. The laws of the address space: a read after a write, the canonical form, and what each
access answers (20_memory.md R61–R64). -/

namespace Sys2Proof.Machine

/-! ### Reading and writing one byte -/

/-- What an unlisted address reads as, in numbers. -/
theorem Memory.background_eq (a : Nat) :
    Memory.background a = if 0x50 ≤ a ∧ a < 0xA0 then Config.font.getD (a - 0x50) 0 else 0 := rfl

theorem Memory.get_cons (a : Nat) (u : Byte) (m : Memory) (b : Nat)
    (fresh : m.get a = Memory.background a) :
    (Memory.cons a u m).get b = if b = a then u else m.get b := by
  unfold Memory.cons
  by_cases hu : u = Memory.background a
  · rw [if_pos hu]
    by_cases hb : b = a
    · rw [if_pos hb, hb, fresh, hu]
    · rw [if_neg hb]
  · rw [if_neg hu]
    by_cases hb : b = a
    · simp [Memory.get, hb]
    · have : a ≠ b := fun e => hb e.symm
      simp [Memory.get, hb, this]

/-- Below the first address a canonical memory may list, every address reads as constructed. -/
theorem Memory.get_below {lo : Nat} {m : Memory} (h : Memory.wfFrom lo m = true) {a : Nat} (ha : a < lo) :
    m.get a = Memory.background a := by
  induction m generalizing lo with
  | nil => rfl
  | cons c m ih =>
    obtain ⟨b, u⟩ := c
    simp only [Memory.wfFrom, Bool.and_eq_true, decide_eq_true_eq] at h
    have : b ≠ a := by omega
    simp only [Memory.get, this, if_false]
    exact ih h.2 (by omega)

theorem Memory.wfFrom_mono {lo lo' : Nat} {m : Memory} (h : Memory.wfFrom lo m = true) (hl : lo' ≤ lo) :
    Memory.wfFrom lo' m = true := by
  cases m with
  | nil => rfl
  | cons c m =>
    obtain ⟨b, u⟩ := c
    simp only [Memory.wfFrom, Bool.and_eq_true, decide_eq_true_eq] at h ⊢
    exact ⟨⟨⟨by omega, h.1.1.2⟩, h.1.2⟩, h.2⟩

theorem Memory.wfFrom_cons {lo a : Nat} {u : Byte} {m : Memory} (hlo : lo ≤ a) (ha : a < 4096)
    (h : Memory.wfFrom (a + 1) m = true) : Memory.wfFrom lo (Memory.cons a u m) = true := by
  unfold Memory.cons
  split
  · exact Memory.wfFrom_mono h (by omega)
  · simp_all [Memory.wfFrom]

/-- A write at an address of the space keeps the canonical form. -/
theorem Memory.wfFrom_set {lo a : Nat} {m : Memory} (u : Byte) (h : Memory.wfFrom lo m = true)
    (hlo : lo ≤ a) (ha : a < 4096) : Memory.wfFrom lo (m.set a u) = true := by
  induction m generalizing lo with
  | nil => exact Memory.wfFrom_cons hlo ha rfl
  | cons c m ih =>
    obtain ⟨b, w⟩ := c
    simp only [Memory.wfFrom, Bool.and_eq_true, decide_eq_true_eq] at h
    obtain ⟨⟨⟨hb, hb'⟩, hw⟩, hm⟩ := h
    simp only [Memory.set]
    split
    · refine Memory.wfFrom_cons hlo ha ?_
      simp_all [Memory.wfFrom]
    · split
      · rename_i hab; subst hab
        exact Memory.wfFrom_cons hlo ha hm
      · simp only [Memory.wfFrom, Bool.and_eq_true, decide_eq_true_eq]
        exact ⟨⟨⟨hb, hb'⟩, hw⟩, ih hm (by omega)⟩

/-- A write at an address of the space keeps the canonical form. -/
theorem Memory.wf_set {a : Nat} {m : Memory} (u : Byte) (h : m.wf = true) (ha : a < 4096) :
    (m.set a u).wf = true := Memory.wfFrom_set u h (Nat.zero_le _) ha

theorem Memory.get_set_from {lo : Nat} {m : Memory} (h : Memory.wfFrom lo m = true) (a : Nat) (u : Byte)
    (b : Nat) : (m.set a u).get b = if b = a then u else m.get b := by
  induction m generalizing lo with
  | nil => exact Memory.get_cons a u [] b rfl
  | cons c m ih =>
    obtain ⟨d, w⟩ := c
    simp only [Memory.wfFrom, Bool.and_eq_true, decide_eq_true_eq] at h
    obtain ⟨⟨⟨hd, hd'⟩, hw⟩, hm⟩ := h
    simp only [Memory.set]
    split
    · rename_i had
      refine Memory.get_cons a u _ b ?_
      have hne : d ≠ a := by omega
      simp only [Memory.get, hne, if_false]
      exact Memory.get_below hm (by omega)
    · split
      · rename_i hda; subst hda
        rw [Memory.get_cons a u m b (Memory.get_below hm (by omega))]
        by_cases hb : b = a
        · simp [hb]
        · have : a ≠ b := fun e => hb e.symm
          simp [hb, Memory.get, this]
      · by_cases hdb : d = b
        · have : b ≠ a := by omega
          simp [Memory.get, hdb, this]
        · simp only [Memory.get, hdb, if_false]
          exact ih hm

/-- A read after a write of a canonical memory: the byte written at its address, every other byte as
before. -/
theorem Memory.get_set {m : Memory} (h : m.wf = true) (a : Nat) (u : Byte) (b : Nat) :
    (m.set a u).get b = if b = a then u else m.get b := Memory.get_set_from h a u b

/-- Two canonical memories that read alike from `lo` on are equal. -/
theorem Memory.ext_from {lo : Nat} {m m' : Memory} (h : Memory.wfFrom lo m = true)
    (h' : Memory.wfFrom lo m' = true) (same : ∀ a, m.get a = m'.get a) : m = m' := by
  induction m generalizing lo m' with
  | nil =>
    cases m' with
    | nil => rfl
    | cons c m' =>
      obtain ⟨b, u⟩ := c
      simp only [Memory.wfFrom, Bool.and_eq_true, decide_eq_true_eq] at h'
      have := same b
      simp only [Memory.get, if_true] at this
      exact absurd this.symm h'.1.2
  | cons c m ih =>
    obtain ⟨b, u⟩ := c
    simp only [Memory.wfFrom, Bool.and_eq_true, decide_eq_true_eq] at h
    obtain ⟨⟨⟨hb, hb'⟩, hu⟩, hm⟩ := h
    cases m' with
    | nil =>
      have := same b
      simp only [Memory.get, if_true] at this
      exact absurd this hu
    | cons c' m' =>
      obtain ⟨b', u'⟩ := c'
      simp only [Memory.wfFrom, Bool.and_eq_true, decide_eq_true_eq] at h'
      obtain ⟨⟨⟨hc, hc'⟩, hu'⟩, hm'⟩ := h'
      have hbb : b = b' := by
        rcases Nat.lt_trichotomy b b' with hlt | heq | hgt
        · have h1 := same b
          have hne : b' ≠ b := by omega
          simp only [Memory.get, if_true, hne, if_false] at h1
          exact absurd (h1.trans (Memory.get_below hm' (by omega))) hu
        · exact heq
        · have h1 := same b'
          have hne : b ≠ b' := by omega
          simp only [Memory.get, if_true, hne, if_false] at h1
          exact absurd (h1.symm.trans (Memory.get_below hm (by omega))) hu'
      subst hbb
      have huu : u = u' := by have := same b; simpa [Memory.get] using this
      subst huu
      have : m = m' := by
        refine ih hm hm' fun a => ?_
        by_cases hab : b = a
        · rw [Memory.get_below hm (by omega), Memory.get_below hm' (by omega)]
        · have := same a
          simpa [Memory.get, hab] using this
      rw [this]

/-- Equal reads make equal memories: the canonical form is unique. -/
theorem Memory.ext_of_wf {m m' : Memory} (h : m.wf = true) (h' : m'.wf = true)
    (same : ∀ a, m.get a = m'.get a) : m = m' := Memory.ext_from h h' same

@[simp] theorem Memory.wf_nil : Memory.wf [] = true := rfl

/-! ### The accesses -/

theorem memRead_eq (m : Memory) (a : Nat) :
    memRead m a = if 4096 ≤ a then .error a else .ok (m.get a) := rfl

theorem memWrite_eq (m : Memory) (a : Nat) (u : Byte) :
    memWrite m a u = if 4096 ≤ a then .error a else .ok (m.set a u) := rfl

theorem memRead_ok {m : Memory} {a : Nat} (h : a < 4096) : memRead m a = .ok (m.get a) := by
  simp [memRead, Nat.not_le.mpr h]

theorem memRead_error {m : Memory} {a : Nat} (h : 4096 ≤ a) : memRead m a = .error a := by
  simp [memRead, h]

theorem memWrite_ok {m : Memory} {a : Nat} {u : Byte} (h : a < 4096) :
    memWrite m a u = .ok (m.set a u) := by
  simp [memWrite, Nat.not_le.mpr h]

theorem memWrite_error {m : Memory} {a : Nat} {u : Byte} (h : 4096 ≤ a) :
    memWrite m a u = .error a := by
  simp [memWrite, h]

/-- A run of reads that stays in the space answers its bytes. -/
theorem readBytes_ok {m : Memory} {count a : Nat} (h : a + count ≤ 4096) :
    readBytes m a count = .ok ((List.range count).map fun k => m.get (a + k)) := by
  induction count generalizing a with
  | zero => rfl
  | succ count ih =>
    simp only [readBytes, memRead_ok (show a < 4096 by omega), ih (show a + 1 + count ≤ 4096 by omega),
      List.range_succ_eq_map, List.map_cons, List.map_map, Nat.add_zero]
    congr 3
    funext k
    simp only [Function.comp]
    congr 1
    omega

/-- A run of reads that leaves the space ends at its first address out of range. -/
theorem readBytes_error {m : Memory} {count a : Nat} (h : 4096 < a + count) (hc : 0 < count) :
    readBytes m a count = .error (max a 4096) := by
  induction count generalizing a with
  | zero => omega
  | succ count ih =>
    by_cases ha : 4096 ≤ a
    · simp [readBytes, memRead_error ha, Nat.max_eq_left ha]
    · simp only [readBytes, memRead_ok (show a < 4096 by omega),
        ih (show 4096 < a + 1 + count by omega) (by omega)]
      have : max (a + 1) 4096 = max a 4096 := by omega
      rw [this]

/-- A run of writes that stays in the space succeeds; each byte reads back, every other byte is as
before, and the canonical form is kept. -/
theorem writeBytes_ok {m : Memory} {bs : List Byte} {a : Nat} (hm : m.wf = true)
    (h : a + bs.length ≤ 4096) :
    ∃ m', writeBytes m a bs = .ok m' ∧ m'.wf = true ∧
      ∀ b, m'.get b = if a ≤ b ∧ b < a + bs.length then bs.getD (b - a) 0 else m.get b := by
  induction bs generalizing m a with
  | nil =>
    refine ⟨m, rfl, hm, fun b => ?_⟩
    have : ¬ (a ≤ b ∧ b < a + ([] : List Byte).length) := by simp only [List.length_nil]; omega
    rw [if_neg this]
  | cons u us ih =>
    simp only [List.length_cons] at h
    have ha : a < 4096 := by omega
    obtain ⟨m', hw, hwf, hget⟩ := ih (m := m.set a u) (a := a + 1) (Memory.wf_set u hm ha) (by omega)
    refine ⟨m', by simp only [writeBytes, memWrite_ok ha, hw], hwf, fun b => ?_⟩
    rw [hget, Memory.get_set hm]
    simp only [List.length_cons]
    by_cases h1 : a + 1 ≤ b ∧ b < a + 1 + us.length
    · have h3 : b - a = (b - (a + 1)) + 1 := by omega
      rw [if_pos h1, if_pos (by omega), h3, List.getD_cons_succ]
    · rw [if_neg h1]
      by_cases h4 : b = a
      · rw [if_pos h4, if_pos (by omega), h4, Nat.sub_self, List.getD_cons_zero]
      · rw [if_neg h4, if_neg (by omega)]

/-- A run of writes that stays in the space succeeds, on any memory. -/
theorem writeBytes_isOk {m : Memory} {bs : List Byte} {a : Nat} (h : a + bs.length ≤ 4096) :
    ∃ m', writeBytes m a bs = .ok m' := by
  induction bs generalizing m a with
  | nil => exact ⟨m, rfl⟩
  | cons u us ih =>
    simp only [List.length_cons] at h
    obtain ⟨m', hw⟩ := ih (m := m.set a u) (a := a + 1) (by omega)
    exact ⟨m', by simp only [writeBytes, memWrite_ok (show a < 4096 by omega), hw]⟩

/-- A run of writes that leaves the space ends at its first address out of range. -/
theorem writeBytes_error {m : Memory} {bs : List Byte} {a : Nat} (h : 4096 < a + bs.length)
    (hb : bs ≠ []) : writeBytes m a bs = .error (max a 4096) := by
  induction bs generalizing m a with
  | nil => exact absurd rfl hb
  | cons u us ih =>
    simp only [List.length_cons] at h
    by_cases ha : 4096 ≤ a
    · simp [writeBytes, memWrite_error ha, Nat.max_eq_left ha]
    · have hus : us ≠ [] := by rintro rfl; simp only [List.length_nil] at h; omega
      have h1 := ih (m := m.set a u) (a := a + 1) (by omega) hus
      have h2 : max (a + 1) 4096 = max a 4096 := by omega
      simp only [writeBytes, memWrite_ok (show a < 4096 by omega), h1, h2]

/-- Whatever a run of writes answers as its memory is canonical. -/
theorem writeBytes_wf {m m' : Memory} {bs : List Byte} {a : Nat} (hm : m.wf = true)
    (h : writeBytes m a bs = .ok m') : m'.wf = true := by
  induction bs generalizing m a with
  | nil => cases h; exact hm
  | cons u us ih =>
    by_cases ha : 4096 ≤ a
    · simp [writeBytes, memWrite_error ha] at h
    · simp only [writeBytes, memWrite_ok (show a < 4096 by omega)] at h
      exact ih (Memory.wf_set u hm (by omega)) h

/-- The fetch inside the space, and outside it. -/
theorem fetch16_ok {m : Memory} {a : Nat} (h : a + 1 < 4096) :
    fetch16 m a = .ok (composeWord (m.get a) (m.get (a + 1))) := by
  simp only [fetch16, Config.memSize, Nat.not_le.mpr h, if_false]

theorem fetch16_error {m : Memory} {a : Nat} (h : 4096 ≤ a + 1) : fetch16 m a = .error a := by
  simp only [fetch16, Config.memSize, h, if_true]

end Sys2Proof.Machine
end

