-- ==== Sys2Proof/Laws/State.lean ====
section
/-! SUPPORT. One lemma per field per update of the state, so that no later proof unfolds a record
update: what each update of Machine/Operands.lean, Flags.lean and Ops.lean leaves in each field. -/

namespace Sys2Proof.Machine

/-! ### State.setReg -/

@[simp] theorem State.setReg_v (s : State) (x : RegIx) (b : Byte) : (s.setReg x b).v = s.v.set x.val b := rfl
@[simp] theorem State.setReg_i (s : State) (x : RegIx) (b : Byte) : (s.setReg x b).i = s.i := rfl
@[simp] theorem State.setReg_pc (s : State) (x : RegIx) (b : Byte) : (s.setReg x b).pc = s.pc := rfl
@[simp] theorem State.setReg_stack (s : State) (x : RegIx) (b : Byte) : (s.setReg x b).stack = s.stack := rfl
@[simp] theorem State.setReg_dt (s : State) (x : RegIx) (b : Byte) : (s.setReg x b).dt = s.dt := rfl
@[simp] theorem State.setReg_st (s : State) (x : RegIx) (b : Byte) : (s.setReg x b).st = s.st := rfl
@[simp] theorem State.setReg_fb (s : State) (x : RegIx) (b : Byte) : (s.setReg x b).fb = s.fb := rfl
@[simp] theorem State.setReg_key (s : State) (x : RegIx) (b : Byte) : (s.setReg x b).key = s.key := rfl
@[simp] theorem State.setReg_mem (s : State) (x : RegIx) (b : Byte) : (s.setReg x b).mem = s.mem := rfl
@[simp] theorem State.setReg_status (s : State) (x : RegIx) (b : Byte) : (s.setReg x b).status = s.status := rfl
@[simp] theorem State.setReg_started (s : State) (x : RegIx) (b : Byte) : (s.setReg x b).started = s.started := rfl
@[simp] theorem State.setReg_result (s : State) (x : RegIx) (b : Byte) : (s.setReg x b).result = s.result := rfl
@[simp] theorem State.setReg_rngDraws (s : State) (x : RegIx) (b : Byte) : (s.setReg x b).rngDraws = s.rngDraws := rfl
@[simp] theorem State.setReg_keyDraws (s : State) (x : RegIx) (b : Byte) : (s.setReg x b).keyDraws = s.keyDraws := rfl

/-! ### State.loadRegs -/

@[simp] theorem State.loadRegs_v (s : State) (bs : List Byte) : (s.loadRegs bs).v = writeRegs s.v 0 bs := rfl
@[simp] theorem State.loadRegs_i (s : State) (bs : List Byte) : (s.loadRegs bs).i = s.i := rfl
@[simp] theorem State.loadRegs_pc (s : State) (bs : List Byte) : (s.loadRegs bs).pc = s.pc := rfl
@[simp] theorem State.loadRegs_stack (s : State) (bs : List Byte) : (s.loadRegs bs).stack = s.stack := rfl
@[simp] theorem State.loadRegs_dt (s : State) (bs : List Byte) : (s.loadRegs bs).dt = s.dt := rfl
@[simp] theorem State.loadRegs_st (s : State) (bs : List Byte) : (s.loadRegs bs).st = s.st := rfl
@[simp] theorem State.loadRegs_fb (s : State) (bs : List Byte) : (s.loadRegs bs).fb = s.fb := rfl
@[simp] theorem State.loadRegs_key (s : State) (bs : List Byte) : (s.loadRegs bs).key = s.key := rfl
@[simp] theorem State.loadRegs_mem (s : State) (bs : List Byte) : (s.loadRegs bs).mem = s.mem := rfl
@[simp] theorem State.loadRegs_status (s : State) (bs : List Byte) : (s.loadRegs bs).status = s.status := rfl
@[simp] theorem State.loadRegs_started (s : State) (bs : List Byte) : (s.loadRegs bs).started = s.started := rfl
@[simp] theorem State.loadRegs_result (s : State) (bs : List Byte) : (s.loadRegs bs).result = s.result := rfl
@[simp] theorem State.loadRegs_rngDraws (s : State) (bs : List Byte) : (s.loadRegs bs).rngDraws = s.rngDraws := rfl
@[simp] theorem State.loadRegs_keyDraws (s : State) (bs : List Byte) : (s.loadRegs bs).keyDraws = s.keyDraws := rfl

/-! ### State.setFlag -/

@[simp] theorem State.setFlag_v (s : State) (f : Byte) : (s.setFlag f).v = s.v.set 15 f := rfl
@[simp] theorem State.setFlag_i (s : State) (f : Byte) : (s.setFlag f).i = s.i := rfl
@[simp] theorem State.setFlag_pc (s : State) (f : Byte) : (s.setFlag f).pc = s.pc := rfl
@[simp] theorem State.setFlag_stack (s : State) (f : Byte) : (s.setFlag f).stack = s.stack := rfl
@[simp] theorem State.setFlag_dt (s : State) (f : Byte) : (s.setFlag f).dt = s.dt := rfl
@[simp] theorem State.setFlag_st (s : State) (f : Byte) : (s.setFlag f).st = s.st := rfl
@[simp] theorem State.setFlag_fb (s : State) (f : Byte) : (s.setFlag f).fb = s.fb := rfl
@[simp] theorem State.setFlag_key (s : State) (f : Byte) : (s.setFlag f).key = s.key := rfl
@[simp] theorem State.setFlag_mem (s : State) (f : Byte) : (s.setFlag f).mem = s.mem := rfl
@[simp] theorem State.setFlag_status (s : State) (f : Byte) : (s.setFlag f).status = s.status := rfl
@[simp] theorem State.setFlag_started (s : State) (f : Byte) : (s.setFlag f).started = s.started := rfl
@[simp] theorem State.setFlag_result (s : State) (f : Byte) : (s.setFlag f).result = s.result := rfl
@[simp] theorem State.setFlag_rngDraws (s : State) (f : Byte) : (s.setFlag f).rngDraws = s.rngDraws := rfl
@[simp] theorem State.setFlag_keyDraws (s : State) (f : Byte) : (s.setFlag f).keyDraws = s.keyDraws := rfl

/-! ### State.setResultFlag -/

@[simp] theorem State.setResultFlag_v (s : State) (x : RegIx) (r f : Byte) : (s.setResultFlag x r f).v = (s.v.set x.val r).set 15 f := rfl
@[simp] theorem State.setResultFlag_i (s : State) (x : RegIx) (r f : Byte) : (s.setResultFlag x r f).i = s.i := rfl
@[simp] theorem State.setResultFlag_pc (s : State) (x : RegIx) (r f : Byte) : (s.setResultFlag x r f).pc = s.pc := rfl
@[simp] theorem State.setResultFlag_stack (s : State) (x : RegIx) (r f : Byte) : (s.setResultFlag x r f).stack = s.stack := rfl
@[simp] theorem State.setResultFlag_dt (s : State) (x : RegIx) (r f : Byte) : (s.setResultFlag x r f).dt = s.dt := rfl
@[simp] theorem State.setResultFlag_st (s : State) (x : RegIx) (r f : Byte) : (s.setResultFlag x r f).st = s.st := rfl
@[simp] theorem State.setResultFlag_fb (s : State) (x : RegIx) (r f : Byte) : (s.setResultFlag x r f).fb = s.fb := rfl
@[simp] theorem State.setResultFlag_key (s : State) (x : RegIx) (r f : Byte) : (s.setResultFlag x r f).key = s.key := rfl
@[simp] theorem State.setResultFlag_mem (s : State) (x : RegIx) (r f : Byte) : (s.setResultFlag x r f).mem = s.mem := rfl
@[simp] theorem State.setResultFlag_status (s : State) (x : RegIx) (r f : Byte) : (s.setResultFlag x r f).status = s.status := rfl
@[simp] theorem State.setResultFlag_started (s : State) (x : RegIx) (r f : Byte) : (s.setResultFlag x r f).started = s.started := rfl
@[simp] theorem State.setResultFlag_result (s : State) (x : RegIx) (r f : Byte) : (s.setResultFlag x r f).result = s.result := rfl
@[simp] theorem State.setResultFlag_rngDraws (s : State) (x : RegIx) (r f : Byte) : (s.setResultFlag x r f).rngDraws = s.rngDraws := rfl
@[simp] theorem State.setResultFlag_keyDraws (s : State) (x : RegIx) (r f : Byte) : (s.setResultFlag x r f).keyDraws = s.keyDraws := rfl

/-! ### State.setI -/

@[simp] theorem State.setI_v (s : State) (w : Word) : (s.setI w).v = s.v := rfl
@[simp] theorem State.setI_i (s : State) (w : Word) : (s.setI w).i = w := rfl
@[simp] theorem State.setI_pc (s : State) (w : Word) : (s.setI w).pc = s.pc := rfl
@[simp] theorem State.setI_stack (s : State) (w : Word) : (s.setI w).stack = s.stack := rfl
@[simp] theorem State.setI_dt (s : State) (w : Word) : (s.setI w).dt = s.dt := rfl
@[simp] theorem State.setI_st (s : State) (w : Word) : (s.setI w).st = s.st := rfl
@[simp] theorem State.setI_fb (s : State) (w : Word) : (s.setI w).fb = s.fb := rfl
@[simp] theorem State.setI_key (s : State) (w : Word) : (s.setI w).key = s.key := rfl
@[simp] theorem State.setI_mem (s : State) (w : Word) : (s.setI w).mem = s.mem := rfl
@[simp] theorem State.setI_status (s : State) (w : Word) : (s.setI w).status = s.status := rfl
@[simp] theorem State.setI_started (s : State) (w : Word) : (s.setI w).started = s.started := rfl
@[simp] theorem State.setI_result (s : State) (w : Word) : (s.setI w).result = s.result := rfl
@[simp] theorem State.setI_rngDraws (s : State) (w : Word) : (s.setI w).rngDraws = s.rngDraws := rfl
@[simp] theorem State.setI_keyDraws (s : State) (w : Word) : (s.setI w).keyDraws = s.keyDraws := rfl
@[simp] theorem State.setI_reg (s : State) (w : Word) (r : RegIx) : (s.setI w).reg r = s.reg r := rfl

/-! ### State.bumpI -/

@[simp] theorem State.bumpI_v (s : State) (x : RegIx) : (s.bumpI x).v = s.v := rfl
@[simp] theorem State.bumpI_i (s : State) (x : RegIx) : (s.bumpI x).i = s.i + BitVec.ofNat 16 (x.val + 1) := rfl
@[simp] theorem State.bumpI_pc (s : State) (x : RegIx) : (s.bumpI x).pc = s.pc := rfl
@[simp] theorem State.bumpI_stack (s : State) (x : RegIx) : (s.bumpI x).stack = s.stack := rfl
@[simp] theorem State.bumpI_dt (s : State) (x : RegIx) : (s.bumpI x).dt = s.dt := rfl
@[simp] theorem State.bumpI_st (s : State) (x : RegIx) : (s.bumpI x).st = s.st := rfl
@[simp] theorem State.bumpI_fb (s : State) (x : RegIx) : (s.bumpI x).fb = s.fb := rfl
@[simp] theorem State.bumpI_key (s : State) (x : RegIx) : (s.bumpI x).key = s.key := rfl
@[simp] theorem State.bumpI_mem (s : State) (x : RegIx) : (s.bumpI x).mem = s.mem := rfl
@[simp] theorem State.bumpI_status (s : State) (x : RegIx) : (s.bumpI x).status = s.status := rfl
@[simp] theorem State.bumpI_started (s : State) (x : RegIx) : (s.bumpI x).started = s.started := rfl
@[simp] theorem State.bumpI_result (s : State) (x : RegIx) : (s.bumpI x).result = s.result := rfl
@[simp] theorem State.bumpI_rngDraws (s : State) (x : RegIx) : (s.bumpI x).rngDraws = s.rngDraws := rfl
@[simp] theorem State.bumpI_keyDraws (s : State) (x : RegIx) : (s.bumpI x).keyDraws = s.keyDraws := rfl
@[simp] theorem State.bumpI_reg (s : State) (x : RegIx) (r : RegIx) : (s.bumpI x).reg r = s.reg r := rfl

/-! ### State.setPc -/

@[simp] theorem State.setPc_v (s : State) (w : Word) : (s.setPc w).v = s.v := rfl
@[simp] theorem State.setPc_i (s : State) (w : Word) : (s.setPc w).i = s.i := rfl
@[simp] theorem State.setPc_pc (s : State) (w : Word) : (s.setPc w).pc = w := rfl
@[simp] theorem State.setPc_stack (s : State) (w : Word) : (s.setPc w).stack = s.stack := rfl
@[simp] theorem State.setPc_dt (s : State) (w : Word) : (s.setPc w).dt = s.dt := rfl
@[simp] theorem State.setPc_st (s : State) (w : Word) : (s.setPc w).st = s.st := rfl
@[simp] theorem State.setPc_fb (s : State) (w : Word) : (s.setPc w).fb = s.fb := rfl
@[simp] theorem State.setPc_key (s : State) (w : Word) : (s.setPc w).key = s.key := rfl
@[simp] theorem State.setPc_mem (s : State) (w : Word) : (s.setPc w).mem = s.mem := rfl
@[simp] theorem State.setPc_status (s : State) (w : Word) : (s.setPc w).status = s.status := rfl
@[simp] theorem State.setPc_started (s : State) (w : Word) : (s.setPc w).started = s.started := rfl
@[simp] theorem State.setPc_result (s : State) (w : Word) : (s.setPc w).result = s.result := rfl
@[simp] theorem State.setPc_rngDraws (s : State) (w : Word) : (s.setPc w).rngDraws = s.rngDraws := rfl
@[simp] theorem State.setPc_keyDraws (s : State) (w : Word) : (s.setPc w).keyDraws = s.keyDraws := rfl
@[simp] theorem State.setPc_reg (s : State) (w : Word) (r : RegIx) : (s.setPc w).reg r = s.reg r := rfl

/-! ### State.advance -/

@[simp] theorem State.advance_v (s : State) : (s.advance).v = s.v := rfl
@[simp] theorem State.advance_i (s : State) : (s.advance).i = s.i := rfl
@[simp] theorem State.advance_pc (s : State) : (s.advance).pc = s.pc + 2 := rfl
@[simp] theorem State.advance_stack (s : State) : (s.advance).stack = s.stack := rfl
@[simp] theorem State.advance_dt (s : State) : (s.advance).dt = s.dt := rfl
@[simp] theorem State.advance_st (s : State) : (s.advance).st = s.st := rfl
@[simp] theorem State.advance_fb (s : State) : (s.advance).fb = s.fb := rfl
@[simp] theorem State.advance_key (s : State) : (s.advance).key = s.key := rfl
@[simp] theorem State.advance_mem (s : State) : (s.advance).mem = s.mem := rfl
@[simp] theorem State.advance_status (s : State) : (s.advance).status = s.status := rfl
@[simp] theorem State.advance_started (s : State) : (s.advance).started = s.started := rfl
@[simp] theorem State.advance_result (s : State) : (s.advance).result = s.result := rfl
@[simp] theorem State.advance_rngDraws (s : State) : (s.advance).rngDraws = s.rngDraws := rfl
@[simp] theorem State.advance_keyDraws (s : State) : (s.advance).keyDraws = s.keyDraws := rfl
@[simp] theorem State.advance_reg (s : State) (r : RegIx) : (s.advance).reg r = s.reg r := rfl

/-! ### State.setStack -/

@[simp] theorem State.setStack_v (s : State) (k : List Word) : (s.setStack k).v = s.v := rfl
@[simp] theorem State.setStack_i (s : State) (k : List Word) : (s.setStack k).i = s.i := rfl
@[simp] theorem State.setStack_pc (s : State) (k : List Word) : (s.setStack k).pc = s.pc := rfl
@[simp] theorem State.setStack_stack (s : State) (k : List Word) : (s.setStack k).stack = k := rfl
@[simp] theorem State.setStack_dt (s : State) (k : List Word) : (s.setStack k).dt = s.dt := rfl
@[simp] theorem State.setStack_st (s : State) (k : List Word) : (s.setStack k).st = s.st := rfl
@[simp] theorem State.setStack_fb (s : State) (k : List Word) : (s.setStack k).fb = s.fb := rfl
@[simp] theorem State.setStack_key (s : State) (k : List Word) : (s.setStack k).key = s.key := rfl
@[simp] theorem State.setStack_mem (s : State) (k : List Word) : (s.setStack k).mem = s.mem := rfl
@[simp] theorem State.setStack_status (s : State) (k : List Word) : (s.setStack k).status = s.status := rfl
@[simp] theorem State.setStack_started (s : State) (k : List Word) : (s.setStack k).started = s.started := rfl
@[simp] theorem State.setStack_result (s : State) (k : List Word) : (s.setStack k).result = s.result := rfl
@[simp] theorem State.setStack_rngDraws (s : State) (k : List Word) : (s.setStack k).rngDraws = s.rngDraws := rfl
@[simp] theorem State.setStack_keyDraws (s : State) (k : List Word) : (s.setStack k).keyDraws = s.keyDraws := rfl
@[simp] theorem State.setStack_reg (s : State) (k : List Word) (r : RegIx) : (s.setStack k).reg r = s.reg r := rfl

/-! ### State.setDt -/

@[simp] theorem State.setDt_v (s : State) (b : Byte) : (s.setDt b).v = s.v := rfl
@[simp] theorem State.setDt_i (s : State) (b : Byte) : (s.setDt b).i = s.i := rfl
@[simp] theorem State.setDt_pc (s : State) (b : Byte) : (s.setDt b).pc = s.pc := rfl
@[simp] theorem State.setDt_stack (s : State) (b : Byte) : (s.setDt b).stack = s.stack := rfl
@[simp] theorem State.setDt_dt (s : State) (b : Byte) : (s.setDt b).dt = b := rfl
@[simp] theorem State.setDt_st (s : State) (b : Byte) : (s.setDt b).st = s.st := rfl
@[simp] theorem State.setDt_fb (s : State) (b : Byte) : (s.setDt b).fb = s.fb := rfl
@[simp] theorem State.setDt_key (s : State) (b : Byte) : (s.setDt b).key = s.key := rfl
@[simp] theorem State.setDt_mem (s : State) (b : Byte) : (s.setDt b).mem = s.mem := rfl
@[simp] theorem State.setDt_status (s : State) (b : Byte) : (s.setDt b).status = s.status := rfl
@[simp] theorem State.setDt_started (s : State) (b : Byte) : (s.setDt b).started = s.started := rfl
@[simp] theorem State.setDt_result (s : State) (b : Byte) : (s.setDt b).result = s.result := rfl
@[simp] theorem State.setDt_rngDraws (s : State) (b : Byte) : (s.setDt b).rngDraws = s.rngDraws := rfl
@[simp] theorem State.setDt_keyDraws (s : State) (b : Byte) : (s.setDt b).keyDraws = s.keyDraws := rfl
@[simp] theorem State.setDt_reg (s : State) (b : Byte) (r : RegIx) : (s.setDt b).reg r = s.reg r := rfl

/-! ### State.setSt -/

@[simp] theorem State.setSt_v (s : State) (b : Byte) : (s.setSt b).v = s.v := rfl
@[simp] theorem State.setSt_i (s : State) (b : Byte) : (s.setSt b).i = s.i := rfl
@[simp] theorem State.setSt_pc (s : State) (b : Byte) : (s.setSt b).pc = s.pc := rfl
@[simp] theorem State.setSt_stack (s : State) (b : Byte) : (s.setSt b).stack = s.stack := rfl
@[simp] theorem State.setSt_dt (s : State) (b : Byte) : (s.setSt b).dt = s.dt := rfl
@[simp] theorem State.setSt_st (s : State) (b : Byte) : (s.setSt b).st = b := rfl
@[simp] theorem State.setSt_fb (s : State) (b : Byte) : (s.setSt b).fb = s.fb := rfl
@[simp] theorem State.setSt_key (s : State) (b : Byte) : (s.setSt b).key = s.key := rfl
@[simp] theorem State.setSt_mem (s : State) (b : Byte) : (s.setSt b).mem = s.mem := rfl
@[simp] theorem State.setSt_status (s : State) (b : Byte) : (s.setSt b).status = s.status := rfl
@[simp] theorem State.setSt_started (s : State) (b : Byte) : (s.setSt b).started = s.started := rfl
@[simp] theorem State.setSt_result (s : State) (b : Byte) : (s.setSt b).result = s.result := rfl
@[simp] theorem State.setSt_rngDraws (s : State) (b : Byte) : (s.setSt b).rngDraws = s.rngDraws := rfl
@[simp] theorem State.setSt_keyDraws (s : State) (b : Byte) : (s.setSt b).keyDraws = s.keyDraws := rfl
@[simp] theorem State.setSt_reg (s : State) (b : Byte) (r : RegIx) : (s.setSt b).reg r = s.reg r := rfl

/-! ### State.setFb -/

@[simp] theorem State.setFb_v (s : State) (fb : Framebuffer) : (s.setFb fb).v = s.v := rfl
@[simp] theorem State.setFb_i (s : State) (fb : Framebuffer) : (s.setFb fb).i = s.i := rfl
@[simp] theorem State.setFb_pc (s : State) (fb : Framebuffer) : (s.setFb fb).pc = s.pc := rfl
@[simp] theorem State.setFb_stack (s : State) (fb : Framebuffer) : (s.setFb fb).stack = s.stack := rfl
@[simp] theorem State.setFb_dt (s : State) (fb : Framebuffer) : (s.setFb fb).dt = s.dt := rfl
@[simp] theorem State.setFb_st (s : State) (fb : Framebuffer) : (s.setFb fb).st = s.st := rfl
@[simp] theorem State.setFb_fb (s : State) (fb : Framebuffer) : (s.setFb fb).fb = fb := rfl
@[simp] theorem State.setFb_key (s : State) (fb : Framebuffer) : (s.setFb fb).key = s.key := rfl
@[simp] theorem State.setFb_mem (s : State) (fb : Framebuffer) : (s.setFb fb).mem = s.mem := rfl
@[simp] theorem State.setFb_status (s : State) (fb : Framebuffer) : (s.setFb fb).status = s.status := rfl
@[simp] theorem State.setFb_started (s : State) (fb : Framebuffer) : (s.setFb fb).started = s.started := rfl
@[simp] theorem State.setFb_result (s : State) (fb : Framebuffer) : (s.setFb fb).result = s.result := rfl
@[simp] theorem State.setFb_rngDraws (s : State) (fb : Framebuffer) : (s.setFb fb).rngDraws = s.rngDraws := rfl
@[simp] theorem State.setFb_keyDraws (s : State) (fb : Framebuffer) : (s.setFb fb).keyDraws = s.keyDraws := rfl
@[simp] theorem State.setFb_reg (s : State) (fb : Framebuffer) (r : RegIx) : (s.setFb fb).reg r = s.reg r := rfl

/-! ### State.setKey -/

@[simp] theorem State.setKey_v (s : State) (k : Option KeyIx) : (s.setKey k).v = s.v := rfl
@[simp] theorem State.setKey_i (s : State) (k : Option KeyIx) : (s.setKey k).i = s.i := rfl
@[simp] theorem State.setKey_pc (s : State) (k : Option KeyIx) : (s.setKey k).pc = s.pc := rfl
@[simp] theorem State.setKey_stack (s : State) (k : Option KeyIx) : (s.setKey k).stack = s.stack := rfl
@[simp] theorem State.setKey_dt (s : State) (k : Option KeyIx) : (s.setKey k).dt = s.dt := rfl
@[simp] theorem State.setKey_st (s : State) (k : Option KeyIx) : (s.setKey k).st = s.st := rfl
@[simp] theorem State.setKey_fb (s : State) (k : Option KeyIx) : (s.setKey k).fb = s.fb := rfl
@[simp] theorem State.setKey_key (s : State) (k : Option KeyIx) : (s.setKey k).key = k := rfl
@[simp] theorem State.setKey_mem (s : State) (k : Option KeyIx) : (s.setKey k).mem = s.mem := rfl
@[simp] theorem State.setKey_status (s : State) (k : Option KeyIx) : (s.setKey k).status = s.status := rfl
@[simp] theorem State.setKey_started (s : State) (k : Option KeyIx) : (s.setKey k).started = s.started := rfl
@[simp] theorem State.setKey_result (s : State) (k : Option KeyIx) : (s.setKey k).result = s.result := rfl
@[simp] theorem State.setKey_rngDraws (s : State) (k : Option KeyIx) : (s.setKey k).rngDraws = s.rngDraws := rfl
@[simp] theorem State.setKey_keyDraws (s : State) (k : Option KeyIx) : (s.setKey k).keyDraws = s.keyDraws := rfl
@[simp] theorem State.setKey_reg (s : State) (k : Option KeyIx) (r : RegIx) : (s.setKey k).reg r = s.reg r := rfl

/-! ### State.setMem -/

@[simp] theorem State.setMem_v (s : State) (m : Memory) : (s.setMem m).v = s.v := rfl
@[simp] theorem State.setMem_i (s : State) (m : Memory) : (s.setMem m).i = s.i := rfl
@[simp] theorem State.setMem_pc (s : State) (m : Memory) : (s.setMem m).pc = s.pc := rfl
@[simp] theorem State.setMem_stack (s : State) (m : Memory) : (s.setMem m).stack = s.stack := rfl
@[simp] theorem State.setMem_dt (s : State) (m : Memory) : (s.setMem m).dt = s.dt := rfl
@[simp] theorem State.setMem_st (s : State) (m : Memory) : (s.setMem m).st = s.st := rfl
@[simp] theorem State.setMem_fb (s : State) (m : Memory) : (s.setMem m).fb = s.fb := rfl
@[simp] theorem State.setMem_key (s : State) (m : Memory) : (s.setMem m).key = s.key := rfl
@[simp] theorem State.setMem_mem (s : State) (m : Memory) : (s.setMem m).mem = m := rfl
@[simp] theorem State.setMem_status (s : State) (m : Memory) : (s.setMem m).status = s.status := rfl
@[simp] theorem State.setMem_started (s : State) (m : Memory) : (s.setMem m).started = s.started := rfl
@[simp] theorem State.setMem_result (s : State) (m : Memory) : (s.setMem m).result = s.result := rfl
@[simp] theorem State.setMem_rngDraws (s : State) (m : Memory) : (s.setMem m).rngDraws = s.rngDraws := rfl
@[simp] theorem State.setMem_keyDraws (s : State) (m : Memory) : (s.setMem m).keyDraws = s.keyDraws := rfl
@[simp] theorem State.setMem_reg (s : State) (m : Memory) (r : RegIx) : (s.setMem m).reg r = s.reg r := rfl

/-! ### State.takeFatal -/

@[simp] theorem State.takeFatal_v (s : State) (e : Fault) : (s.takeFatal e).v = s.v := rfl
@[simp] theorem State.takeFatal_i (s : State) (e : Fault) : (s.takeFatal e).i = s.i := rfl
@[simp] theorem State.takeFatal_pc (s : State) (e : Fault) : (s.takeFatal e).pc = s.pc := rfl
@[simp] theorem State.takeFatal_stack (s : State) (e : Fault) : (s.takeFatal e).stack = s.stack := rfl
@[simp] theorem State.takeFatal_dt (s : State) (e : Fault) : (s.takeFatal e).dt = s.dt := rfl
@[simp] theorem State.takeFatal_st (s : State) (e : Fault) : (s.takeFatal e).st = s.st := rfl
@[simp] theorem State.takeFatal_fb (s : State) (e : Fault) : (s.takeFatal e).fb = s.fb := rfl
@[simp] theorem State.takeFatal_key (s : State) (e : Fault) : (s.takeFatal e).key = s.key := rfl
@[simp] theorem State.takeFatal_mem (s : State) (e : Fault) : (s.takeFatal e).mem = s.mem := rfl
@[simp] theorem State.takeFatal_status (s : State) (e : Fault) : (s.takeFatal e).status = .halted e := rfl
@[simp] theorem State.takeFatal_started (s : State) (e : Fault) : (s.takeFatal e).started = s.started := rfl
@[simp] theorem State.takeFatal_result (s : State) (e : Fault) : (s.takeFatal e).result = some (.err e) := rfl
@[simp] theorem State.takeFatal_rngDraws (s : State) (e : Fault) : (s.takeFatal e).rngDraws = s.rngDraws := rfl
@[simp] theorem State.takeFatal_keyDraws (s : State) (e : Fault) : (s.takeFatal e).keyDraws = s.keyDraws := rfl
@[simp] theorem State.takeFatal_reg (s : State) (e : Fault) (r : RegIx) : (s.takeFatal e).reg r = s.reg r := rfl

/-! ### State.haltedStep -/

@[simp] theorem State.haltedStep_v (s : State) (e : Fault) : (s.haltedStep e).v = s.v := rfl
@[simp] theorem State.haltedStep_i (s : State) (e : Fault) : (s.haltedStep e).i = s.i := rfl
@[simp] theorem State.haltedStep_pc (s : State) (e : Fault) : (s.haltedStep e).pc = s.pc := rfl
@[simp] theorem State.haltedStep_stack (s : State) (e : Fault) : (s.haltedStep e).stack = s.stack := rfl
@[simp] theorem State.haltedStep_dt (s : State) (e : Fault) : (s.haltedStep e).dt = s.dt := rfl
@[simp] theorem State.haltedStep_st (s : State) (e : Fault) : (s.haltedStep e).st = s.st := rfl
@[simp] theorem State.haltedStep_fb (s : State) (e : Fault) : (s.haltedStep e).fb = s.fb := rfl
@[simp] theorem State.haltedStep_key (s : State) (e : Fault) : (s.haltedStep e).key = s.key := rfl
@[simp] theorem State.haltedStep_mem (s : State) (e : Fault) : (s.haltedStep e).mem = s.mem := rfl
@[simp] theorem State.haltedStep_status (s : State) (e : Fault) : (s.haltedStep e).status = s.status := rfl
@[simp] theorem State.haltedStep_started (s : State) (e : Fault) : (s.haltedStep e).started = s.started := rfl
@[simp] theorem State.haltedStep_result (s : State) (e : Fault) : (s.haltedStep e).result = some (.err e) := rfl
@[simp] theorem State.haltedStep_rngDraws (s : State) (e : Fault) : (s.haltedStep e).rngDraws = s.rngDraws := rfl
@[simp] theorem State.haltedStep_keyDraws (s : State) (e : Fault) : (s.haltedStep e).keyDraws = s.keyDraws := rfl
@[simp] theorem State.haltedStep_reg (s : State) (e : Fault) (r : RegIx) : (s.haltedStep e).reg r = s.reg r := rfl

/-! ### State.warnUnknown -/

@[simp] theorem State.warnUnknown_v (s : State) (w : Word) : (s.warnUnknown w).v = s.v := rfl
@[simp] theorem State.warnUnknown_i (s : State) (w : Word) : (s.warnUnknown w).i = s.i := rfl
@[simp] theorem State.warnUnknown_pc (s : State) (w : Word) : (s.warnUnknown w).pc = s.pc + 2 := rfl
@[simp] theorem State.warnUnknown_stack (s : State) (w : Word) : (s.warnUnknown w).stack = s.stack := rfl
@[simp] theorem State.warnUnknown_dt (s : State) (w : Word) : (s.warnUnknown w).dt = s.dt := rfl
@[simp] theorem State.warnUnknown_st (s : State) (w : Word) : (s.warnUnknown w).st = s.st := rfl
@[simp] theorem State.warnUnknown_fb (s : State) (w : Word) : (s.warnUnknown w).fb = s.fb := rfl
@[simp] theorem State.warnUnknown_key (s : State) (w : Word) : (s.warnUnknown w).key = s.key := rfl
@[simp] theorem State.warnUnknown_mem (s : State) (w : Word) : (s.warnUnknown w).mem = s.mem := rfl
@[simp] theorem State.warnUnknown_status (s : State) (w : Word) : (s.warnUnknown w).status = s.status := rfl
@[simp] theorem State.warnUnknown_started (s : State) (w : Word) : (s.warnUnknown w).started = s.started := rfl
@[simp] theorem State.warnUnknown_result (s : State) (w : Word) : (s.warnUnknown w).result = some (.warn s.pc w) := rfl
@[simp] theorem State.warnUnknown_rngDraws (s : State) (w : Word) : (s.warnUnknown w).rngDraws = s.rngDraws := rfl
@[simp] theorem State.warnUnknown_keyDraws (s : State) (w : Word) : (s.warnUnknown w).keyDraws = s.keyDraws := rfl
@[simp] theorem State.warnUnknown_reg (s : State) (w : Word) (r : RegIx) : (s.warnUnknown w).reg r = s.reg r := rfl

/-! ### State.drewRandom -/

@[simp] theorem State.drewRandom_v (s : State) : (s.drewRandom).v = s.v := rfl
@[simp] theorem State.drewRandom_i (s : State) : (s.drewRandom).i = s.i := rfl
@[simp] theorem State.drewRandom_pc (s : State) : (s.drewRandom).pc = s.pc := rfl
@[simp] theorem State.drewRandom_stack (s : State) : (s.drewRandom).stack = s.stack := rfl
@[simp] theorem State.drewRandom_dt (s : State) : (s.drewRandom).dt = s.dt := rfl
@[simp] theorem State.drewRandom_st (s : State) : (s.drewRandom).st = s.st := rfl
@[simp] theorem State.drewRandom_fb (s : State) : (s.drewRandom).fb = s.fb := rfl
@[simp] theorem State.drewRandom_key (s : State) : (s.drewRandom).key = s.key := rfl
@[simp] theorem State.drewRandom_mem (s : State) : (s.drewRandom).mem = s.mem := rfl
@[simp] theorem State.drewRandom_status (s : State) : (s.drewRandom).status = s.status := rfl
@[simp] theorem State.drewRandom_started (s : State) : (s.drewRandom).started = s.started := rfl
@[simp] theorem State.drewRandom_result (s : State) : (s.drewRandom).result = s.result := rfl
@[simp] theorem State.drewRandom_rngDraws (s : State) : (s.drewRandom).rngDraws = s.rngDraws + 1 := rfl
@[simp] theorem State.drewRandom_keyDraws (s : State) : (s.drewRandom).keyDraws = s.keyDraws := rfl
@[simp] theorem State.drewRandom_reg (s : State) (r : RegIx) : (s.drewRandom).reg r = s.reg r := rfl

/-! ### State.beginStep -/

@[simp] theorem State.beginStep_v (s : State) : (s.beginStep).v = s.v := rfl
@[simp] theorem State.beginStep_i (s : State) : (s.beginStep).i = s.i := rfl
@[simp] theorem State.beginStep_pc (s : State) : (s.beginStep).pc = s.pc := rfl
@[simp] theorem State.beginStep_stack (s : State) : (s.beginStep).stack = s.stack := rfl
@[simp] theorem State.beginStep_dt (s : State) : (s.beginStep).dt = timerTick s.dt := rfl
@[simp] theorem State.beginStep_st (s : State) : (s.beginStep).st = timerTick s.st := rfl
@[simp] theorem State.beginStep_fb (s : State) : (s.beginStep).fb = s.fb := rfl
@[simp] theorem State.beginStep_key (s : State) : (s.beginStep).key = s.key := rfl
@[simp] theorem State.beginStep_mem (s : State) : (s.beginStep).mem = s.mem := rfl
@[simp] theorem State.beginStep_status (s : State) : (s.beginStep).status = s.status := rfl
@[simp] theorem State.beginStep_started (s : State) : (s.beginStep).started = true := rfl
@[simp] theorem State.beginStep_result (s : State) : (s.beginStep).result = some .ok := rfl
@[simp] theorem State.beginStep_rngDraws (s : State) : (s.beginStep).rngDraws = s.rngDraws := rfl
@[simp] theorem State.beginStep_keyDraws (s : State) : (s.beginStep).keyDraws = s.keyDraws := rfl
@[simp] theorem State.beginStep_reg (s : State) (r : RegIx) : (s.beginStep).reg r = s.reg r := rfl

/-! ### State.skipIf and State.drewKey, whose results depend on a condition -/

@[simp] theorem State.skipIf_v (s : State) (c : Bool) : (s.skipIf c).v = s.v := by cases c <;> rfl
@[simp] theorem State.skipIf_i (s : State) (c : Bool) : (s.skipIf c).i = s.i := by cases c <;> rfl
@[simp] theorem State.skipIf_pc (s : State) (c : Bool) : (s.skipIf c).pc = if c then s.pc + 4 else s.pc + 2 := by
  cases c <;> rfl
@[simp] theorem State.skipIf_stack (s : State) (c : Bool) : (s.skipIf c).stack = s.stack := by cases c <;> rfl
@[simp] theorem State.skipIf_dt (s : State) (c : Bool) : (s.skipIf c).dt = s.dt := by cases c <;> rfl
@[simp] theorem State.skipIf_st (s : State) (c : Bool) : (s.skipIf c).st = s.st := by cases c <;> rfl
@[simp] theorem State.skipIf_fb (s : State) (c : Bool) : (s.skipIf c).fb = s.fb := by cases c <;> rfl
@[simp] theorem State.skipIf_key (s : State) (c : Bool) : (s.skipIf c).key = s.key := by cases c <;> rfl
@[simp] theorem State.skipIf_mem (s : State) (c : Bool) : (s.skipIf c).mem = s.mem := by cases c <;> rfl
@[simp] theorem State.skipIf_status (s : State) (c : Bool) : (s.skipIf c).status = s.status := by cases c <;> rfl
@[simp] theorem State.skipIf_started (s : State) (c : Bool) : (s.skipIf c).started = s.started := by cases c <;> rfl
@[simp] theorem State.skipIf_result (s : State) (c : Bool) : (s.skipIf c).result = s.result := by cases c <;> rfl
@[simp] theorem State.skipIf_rngDraws (s : State) (c : Bool) : (s.skipIf c).rngDraws = s.rngDraws := by cases c <;> rfl
@[simp] theorem State.skipIf_keyDraws (s : State) (c : Bool) : (s.skipIf c).keyDraws = s.keyDraws := by cases c <;> rfl
@[simp] theorem State.skipIf_reg (s : State) (c : Bool) (r : RegIx) : (s.skipIf c).reg r = s.reg r := by
  cases c <;> rfl

@[simp] theorem State.drewKey_v (s : State) : s.drewKey.v = s.v := by
  unfold State.drewKey; split <;> rfl
@[simp] theorem State.drewKey_i (s : State) : s.drewKey.i = s.i := by
  unfold State.drewKey; split <;> rfl
@[simp] theorem State.drewKey_pc (s : State) : s.drewKey.pc = s.pc := by
  unfold State.drewKey; split <;> rfl
@[simp] theorem State.drewKey_stack (s : State) : s.drewKey.stack = s.stack := by
  unfold State.drewKey; split <;> rfl
@[simp] theorem State.drewKey_dt (s : State) : s.drewKey.dt = s.dt := by
  unfold State.drewKey; split <;> rfl
@[simp] theorem State.drewKey_st (s : State) : s.drewKey.st = s.st := by
  unfold State.drewKey; split <;> rfl
@[simp] theorem State.drewKey_fb (s : State) : s.drewKey.fb = s.fb := by
  unfold State.drewKey; split <;> rfl
@[simp] theorem State.drewKey_key (s : State) : s.drewKey.key = s.key := by
  unfold State.drewKey; split <;> rfl
@[simp] theorem State.drewKey_mem (s : State) : s.drewKey.mem = s.mem := by
  unfold State.drewKey; split <;> rfl
@[simp] theorem State.drewKey_status (s : State) : s.drewKey.status = s.status := by
  unfold State.drewKey; split <;> rfl
@[simp] theorem State.drewKey_started (s : State) : s.drewKey.started = s.started := by
  unfold State.drewKey; split <;> rfl
@[simp] theorem State.drewKey_result (s : State) : s.drewKey.result = s.result := by
  unfold State.drewKey; split <;> rfl
@[simp] theorem State.drewKey_rngDraws (s : State) : s.drewKey.rngDraws = s.rngDraws := by
  unfold State.drewKey; split <;> rfl
@[simp] theorem State.drewKey_keyDraws (s : State) :
    s.drewKey.keyDraws = if s.key.isNone then s.keyDraws + 1 else s.keyDraws := by
  unfold State.drewKey; cases h : s.key <;> simp
@[simp] theorem State.drewKey_reg (s : State) (r : RegIx) : s.drewKey.reg r = s.reg r := by
  unfold State.reg; simp

/-! ### Registers after an update of the register file -/

/-- Reading a register after a register write: the byte written, or what it held. -/
theorem State.setReg_reg (s : State) (x r : RegIx) (b : Byte) :
    (s.setReg x b).reg r = if r = x then b else s.reg r := by
  unfold State.reg State.setReg
  by_cases h : r = x
  · subst h; simp
  · have : x.val ≠ r.val := fun e => h (Fin.ext e.symm)
    simp [h, this]

@[simp] theorem State.setReg_reg_same (s : State) (x : RegIx) (b : Byte) : (s.setReg x b).reg x = b := by
  simp [State.setReg_reg]

theorem State.setReg_reg_other (s : State) {x r : RegIx} (b : Byte) (h : r ≠ x) :
    (s.setReg x b).reg r = s.reg r := by
  simp [State.setReg_reg, h]

/-- Reading a register after VF is written. -/
theorem State.setFlag_reg (s : State) (r : RegIx) (f : Byte) :
    (s.setFlag f).reg r = if r = 15 then f else s.reg r := by
  simp [State.setFlag, State.setReg_reg]

/-- Reading a register after a result and its flag: the flag is written last, so it wins in VF. -/
theorem State.setResultFlag_reg (s : State) (x r : RegIx) (b f : Byte) :
    (s.setResultFlag x b f).reg r = if r = 15 then f else if r = x then b else s.reg r := by
  simp [State.setResultFlag, State.setFlag_reg, State.setReg_reg]

/-- Reading register `r` of a file into which bytes were put from number `i` on. -/
theorem writeRegs_get (bs : List Byte) :
    ∀ (v : Vector Byte 16) (i : Nat) (r : RegIx),
      (writeRegs v i bs)[r.val] =
        if i ≤ r.val ∧ r.val < i + bs.length then bs.getD (r.val - i) 0 else v[r.val] := by
  induction bs with
  | nil =>
    intro v i r
    have : ¬ (i ≤ r.val ∧ r.val < i + 0) := by omega
    simp only [writeRegs, List.length_nil, if_neg this]
  | cons b bs ih =>
    intro v i r
    rw [writeRegs, ih]
    have hr := r.isLt
    by_cases h1 : i + 1 ≤ r.val ∧ r.val < i + 1 + bs.length
    · have h2 : i ≤ r.val ∧ r.val < i + (b :: bs).length := by simp only [List.length_cons]; omega
      have h3 : r.val - i = (r.val - (i + 1)) + 1 := by omega
      rw [if_pos h1, if_pos h2, h3, List.getD_cons_succ]
    · rw [if_neg h1]
      by_cases h4 : i = r.val
      · have h2 : i ≤ r.val ∧ r.val < i + (b :: bs).length := by simp only [List.length_cons]; omega
        rw [if_pos h2]
        subst h4
        simp
      · have h2 : ¬ (i ≤ r.val ∧ r.val < i + (b :: bs).length) := by simp only [List.length_cons]; omega
        rw [if_neg h2, Vector.getElem_setIfInBounds_ne _ h4]

/-- The registers after a load of bytes from `V[0]` on. -/
theorem State.loadRegs_reg (s : State) (bs : List Byte) (r : RegIx) :
    (s.loadRegs bs).reg r = if r.val < bs.length then bs.getD r.val 0 else s.reg r := by
  unfold State.reg State.loadRegs
  simp only [writeRegs_get]
  simp

/-- The registers that Fx55 stores are `x + 1` many. -/
@[simp] theorem State.regsUpTo_length (s : State) (x : RegIx) : (s.regsUpTo x).length = x.val + 1 := by
  have := x.isLt
  simp only [State.regsUpTo, List.length_take, Vector.length_toList]
  omega

/-- The `k`-th byte that Fx55 stores is `V[k]`. -/
theorem State.regsUpTo_get (s : State) (x r : RegIx) (h : r.val ≤ x.val) :
    (s.regsUpTo x)[r.val]? = some (s.reg r) := by
  have hr := r.isLt
  have : r.val < x.val + 1 := by omega
  simp [State.regsUpTo, State.reg, this]

end Sys2Proof.Machine
end

