-- ==== Sys2Proof/Laws/Ops.lean ====
section
/-! SUPPORT. What each shared operation of Machine/Ops.lean, Operands.lean and Flags.lean answers, in
every case. -/

namespace Sys2Proof.Machine

/-! ### Attempts and fatal errors -/

@[simp] theorem State.orHalt_ok (s t : State) : s.orHalt (.ok t) = .next t := rfl

@[simp] theorem State.orHalt_error (s : State) (e : Fault) : s.orHalt (.error e) = .next (s.takeFatal e) := rfl

@[simp] theorem State.memFault_ok (s : State) {α : Type} (a : α) : s.memFault (.ok a) = .ok a := rfl

@[simp] theorem State.memFault_error (s : State) {α : Type} (a : Nat) :
    s.memFault (.error a : Except Nat α) = .error (.memoryFault s.pc a) := rfl

/-- Taking a fatal error changes the status and the result, nothing else. -/
theorem State.takeFatal_changesOnly (s : State) (e : Fault) :
    ChangesOnly Part.halting s (s.takeFatal e) := by
  intro p hp
  cases p <;> first | rfl | simp [Part.halting] at hp

/-! ### The call stack -/

theorem State.push_ok {s : State} (w : Word) (h : s.stack.length < 16) :
    s.push w = .ok (s.setStack (s.stack ++ [w])) := by
  simp [State.push, Nat.not_le.mpr h]

theorem State.push_full {s : State} (w : Word) (h : 16 ≤ s.stack.length) :
    s.push w = .error (.stackOverflow s.pc) := by
  simp [State.push, h]

theorem State.pop_top {s : State} {rest : List Word} {w : Word} (h : s.stack = rest ++ [w]) :
    s.pop = .ok (w, s.setStack rest) := by
  simp [State.pop, h]

theorem State.pop_empty {s : State} (h : s.stack = []) : s.pop = .error (.stackUnderflow s.pc) := by
  simp [State.pop, h]

/-! ### Runs of bytes at I -/

@[simp] theorem State.effAddr_eq (s : State) (k : Nat) : s.effAddr k = s.i.toNat + k := rfl

theorem State.readAtI_ok {s : State} {count : Nat} (h : s.i.toNat + count ≤ 4096) :
    s.readAtI count = .ok ((List.range count).map fun k => s.mem.get (s.i.toNat + k)) := by
  simp [State.readAtI, readBytes_ok h]

theorem State.readAtI_error {s : State} {count : Nat} (h : 4096 < s.i.toNat + count) (hc : 0 < count) :
    s.readAtI count = .error (.memoryFault s.pc (max s.i.toNat 4096)) := by
  simp [State.readAtI, readBytes_error h hc]

/-- Bytes stored at `I` inside the space: each reads back, every other byte is as before. -/
theorem State.writeAtI_ok {s : State} {bs : List Byte} (hm : s.mem.wf = true)
    (h : s.i.toNat + bs.length ≤ 4096) :
    ∃ m, s.writeAtI bs = .ok (s.setMem m) ∧ m.wf = true ∧
      ∀ b, m.get b =
        if s.i.toNat ≤ b ∧ b < s.i.toNat + bs.length then bs.getD (b - s.i.toNat) 0 else s.mem.get b := by
  obtain ⟨m, hw, hwf, hget⟩ := writeBytes_ok hm h
  exact ⟨m, by simp [State.writeAtI, hw], hwf, hget⟩

theorem State.writeAtI_error {s : State} {bs : List Byte} (h : 4096 < s.i.toNat + bs.length)
    (hb : bs ≠ []) : s.writeAtI bs = .error (.memoryFault s.pc (max s.i.toNat 4096)) := by
  simp [State.writeAtI, writeBytes_error h hb]

/-- If a store at `I` answers a state, only the memory changed, and it stays canonical. -/
theorem State.writeAtI_cases {s t : State} {bs : List Byte} (h : s.writeAtI bs = .ok t) :
    ∃ m, t = s.setMem m ∧ (s.mem.wf = true → m.wf = true) := by
  unfold State.writeAtI at h
  cases hw : writeBytes s.mem (s.effAddr 0) bs with
  | error a => rw [hw] at h; cases h
  | ok m => rw [hw] at h; cases h; exact ⟨m, rfl, fun hm => writeBytes_wf hm hw⟩

/-- A store at `I` inside the space raises nothing. -/
theorem State.writeAtI_isOk {s : State} {bs : List Byte} (h : s.i.toNat + bs.length ≤ 4096) (e : Fault) :
    s.writeAtI bs ≠ .error e := by
  obtain ⟨m, hm⟩ := writeBytes_isOk (m := s.mem) h
  simp [State.writeAtI, hm]

/-! ### Flags, operands and timers as numbers -/

theorem timerTick_toNat (b : Byte) : (timerTick b).toNat = b.toNat - 1 := by
  unfold timerTick
  by_cases h : b = 0
  · subst h; rfl
  · rw [if_neg h]
    have hb := b.isLt
    have : b.toNat ≠ 0 := fun e => h (BitVec.eq_of_toNat_eq (by simpa using e))
    have h1 : (1 : Byte).toNat = 1 := rfl
    rw [BitVec.toNat_sub, h1]
    omega

@[simp] theorem flagByte_toNat (b : Bool) : (flagByte b).toNat = if b then 1 else 0 := by
  cases b <;> rfl

/-- The key comparison: a key is held and it is the number of the byte. -/
theorem State.keyIs_iff (s : State) (b : Byte) :
    s.keyIs b = true ↔ ∃ k : KeyIx, s.key = some k ∧ k.val = b.toNat := by
  unfold State.keyIs
  cases s.key <;> simp

theorem glyphOffset_toNat (b : Byte) : (glyphOffset b).toNat = 5 * b.toNat := by
  have := b.isLt
  simp only [glyphOffset, BitVec.toNat_ofNat]
  omega

theorem bcdDigits_toNat (b : Byte) :
    (bcdDigits b).map BitVec.toNat = [b.toNat / 100, b.toNat / 10 % 10, b.toNat % 10] := by
  have := b.isLt
  have h1 : b.toNat / 100 % 2 ^ 8 = b.toNat / 100 := Nat.mod_eq_of_lt (by omega)
  have h2 : b.toNat / 10 % 10 % 2 ^ 8 = b.toNat / 10 % 10 := Nat.mod_eq_of_lt (by omega)
  have h3 : b.toNat % 10 % 2 ^ 8 = b.toNat % 10 := Nat.mod_eq_of_lt (by omega)
  simp only [bcdDigits, List.map_cons, List.map_nil, BitVec.toNat_ofNat, h1, h2, h3]

/-! ### The fetch -/

theorem State.fetch_ok {s : State} (h : s.pc.toNat + 1 < 4096) :
    s.fetch = .ok (composeWord (s.mem.get s.pc.toNat) (s.mem.get (s.pc.toNat + 1))) := by
  simp [State.fetch, fetch16_ok h]

theorem State.fetch_error {s : State} (h : 4096 ≤ s.pc.toNat + 1) :
    s.fetch = .error (.memoryFault s.pc s.pc.toNat) := by
  simp [State.fetch, fetch16_error h]

/-- A machine that fetches `w` fetches exactly the word of its two bytes. -/
theorem FetchesWord.word {s : State} {w : Word} (h : FetchesWord s w) :
    w = composeWord (s.mem.get s.pc.toNat) (s.mem.get (s.pc.toNat + 1)) := by
  apply BitVec.eq_of_toNat_eq
  rw [composeWord_toNat]
  exact h.2.2

/-! ### The step -/

/-- A step of a halted machine changes at most the result. -/
theorem step_halted {s : State} {e : Fault} (h : s.status = .halted e) :
    step s = .next (s.haltedStep e) := by
  simp [step, h]

/-- A step of a running machine is the cycle from the state after the timer tick. -/
theorem step_running {s : State} (h : s.status = .running) : step s = runCycle s.beginStep := by
  simp [step, h]

/-- Everything a step can do: nothing, when halted; take the fetch's fatal error; run the decoded
instruction; or pass over an unmapped word. -/
theorem step_cases (s : State) :
    (∃ e, s.status = .halted e ∧ step s = .next (s.haltedStep e)) ∨
    (s.status = .running ∧ 4096 ≤ s.pc.toNat + 1 ∧
      step s = .next (s.beginStep.takeFatal (.memoryFault s.pc s.pc.toNat))) ∨
    (∃ w i, FetchesWord s w ∧ decode w = .insn i ∧ step s = exec i s.beginStep) ∨
    (∃ w, FetchesWord s w ∧ decode w = .unknown w ∧ step s = .next (s.beginStep.warnUnknown w)) := by
  cases hs : s.status with
  | halted e => exact .inl ⟨e, rfl, step_halted hs⟩
  | running =>
    right
    by_cases hp : 4096 ≤ s.pc.toNat + 1
    · left
      refine ⟨rfl, hp, ?_⟩
      rw [step_running hs, runCycle, State.fetch_error (s := s.beginStep) hp]
      rfl
    · right
      have hp' : s.pc.toNat + 1 < 4096 := by omega
      have hf := State.fetch_ok (s := s.beginStep) hp'
      simp only [State.beginStep_mem, State.beginStep_pc] at hf
      generalize hw : composeWord (s.mem.get s.pc.toNat) (s.mem.get (s.pc.toNat + 1)) = w at hf
      have hfw : FetchesWord s w := ⟨hs, hp', by rw [← hw, composeWord_toNat]⟩
      cases hd : decode w with
      | insn i =>
        left
        exact ⟨w, i, hfw, hd, by rw [step_running hs, runCycle, hf]; simp only [hd]⟩
      | unknown w' =>
        right
        have : w' = w := decode_unknown hd
        subst this
        exact ⟨w', hfw, hd, by rw [step_running hs, runCycle, hf]; simp only [hd]⟩

end Sys2Proof.Machine
end

