-- ==== Sys2Proof/Laws/Meanings.lean ====
section
/-! SUPPORT. What each meaning answers, one lemma per instruction: an equation for the instructions
that cannot raise, and all the cases for the six that can. -/

namespace Sys2Proof.Machine

/-! ### Instructions that never raise -/

theorem exec_cls (s : State) :
    exec .cls s = .next ((s.setFb Framebuffer.clear).advance) := rfl

theorem exec_jp (nnn : Word) (s : State) :
    exec (.jp nnn) s = .next (s.setPc nnn) := rfl

theorem exec_jpV0 (nnn : Word) (s : State) :
    exec (.jpV0 nnn) s = .next (s.setPc (nnn + (s.reg 0).setWidth 16)) := rfl

theorem exec_seVxKk (x : RegIx) (kk : Byte) (s : State) :
    exec (.seVxKk x kk) s = .next (s.skipIf (s.reg x = kk)) := rfl

theorem exec_sneVxKk (x : RegIx) (kk : Byte) (s : State) :
    exec (.sneVxKk x kk) s = .next (s.skipIf (s.reg x ≠ kk)) := rfl

theorem exec_seVxVy (x y : RegIx) (s : State) :
    exec (.seVxVy x y) s = .next (s.skipIf (s.reg x = s.reg y)) := rfl

theorem exec_sneVxVy (x y : RegIx) (s : State) :
    exec (.sneVxVy x y) s = .next (s.skipIf (s.reg x ≠ s.reg y)) := rfl

theorem exec_ldVxKk (x : RegIx) (kk : Byte) (s : State) :
    exec (.ldVxKk x kk) s = .next ((s.setReg x kk).advance) := rfl

theorem exec_addVxKk (x : RegIx) (kk : Byte) (s : State) :
    exec (.addVxKk x kk) s = .next ((s.setReg x (s.reg x + kk)).advance) := rfl

theorem exec_ldVxVy (x y : RegIx) (s : State) :
    exec (.ldVxVy x y) s = .next ((s.setReg x (s.reg y)).advance) := rfl

theorem exec_orVxVy (x y : RegIx) (s : State) :
    exec (.orVxVy x y) s = .next ((s.setReg x (s.reg x ||| s.reg y)).advance) := rfl

theorem exec_andVxVy (x y : RegIx) (s : State) :
    exec (.andVxVy x y) s = .next ((s.setReg x (s.reg x &&& s.reg y)).advance) := rfl

theorem exec_xorVxVy (x y : RegIx) (s : State) :
    exec (.xorVxVy x y) s = .next ((s.setReg x (s.reg x ^^^ s.reg y)).advance) := rfl

theorem exec_addVxVy (x y : RegIx) (s : State) :
    exec (.addVxVy x y) s = .next ((s.setResultFlag x (s.reg x + s.reg y) (carryFlag (s.reg x) (s.reg y))).advance) := rfl

theorem exec_sub (x y : RegIx) (s : State) :
    exec (.sub x y) s = .next ((s.setResultFlag x (s.reg x - s.reg y) (greaterFlag (s.reg x) (s.reg y))).advance) := rfl

theorem exec_shr (x y : RegIx) (s : State) :
    exec (.shr x y) s = .next ((s.setResultFlag x (s.reg x >>> 1) (lowBitFlag (s.reg x))).advance) := rfl

theorem exec_subn (x y : RegIx) (s : State) :
    exec (.subn x y) s = .next ((s.setResultFlag x (s.reg y - s.reg x) (greaterFlag (s.reg y) (s.reg x))).advance) := rfl

theorem exec_shl (x y : RegIx) (s : State) :
    exec (.shl x y) s = .next ((s.setResultFlag x (s.reg x <<< 1) (highBitFlag (s.reg x))).advance) := rfl

theorem exec_ldINnn (nnn : Word) (s : State) :
    exec (.ldINnn nnn) s = .next ((s.setI nnn).advance) := rfl

theorem exec_rnd (x : RegIx) (kk : Byte) (s : State) :
    exec (.rnd x kk) s = .next ((s.drewRandom.setReg x (s.randomByte &&& kk)).advance) := rfl

theorem exec_skp (x : RegIx) (s : State) :
    exec (.skp x) s = .next (s.skipIf (s.keyIs (s.reg x))) := rfl

theorem exec_sknp (x : RegIx) (s : State) :
    exec (.sknp x) s = .next (s.skipIf (!s.keyIs (s.reg x))) := rfl

theorem exec_ldVxDt (x : RegIx) (s : State) :
    exec (.ldVxDt x) s = .next ((s.setReg x s.dt).advance) := rfl

theorem exec_ldVxK (x : RegIx) (s : State) :
    exec (.ldVxK x) s = .next ((s.drewKey.setReg x s.keyByte).advance) := rfl

theorem exec_ldDtVx (x : RegIx) (s : State) :
    exec (.ldDtVx x) s = .next ((s.setDt (s.reg x)).advance) := rfl

theorem exec_ldStVx (x : RegIx) (s : State) :
    exec (.ldStVx x) s = .next ((s.setSt (s.reg x)).advance) := rfl

theorem exec_addIVx (x : RegIx) (s : State) :
    exec (.addIVx x) s = .next ((s.setI (s.i + (s.reg x).setWidth 16)).advance) := rfl

theorem exec_ldFVx (x : RegIx) (s : State) :
    exec (.ldFVx x) s = .next ((s.setI (glyphOffset (s.reg x))).advance) := rfl

/-! ### Instructions that may raise -/

/-- 00EE pops an entry, or takes StackUnderflow. -/
theorem exec_ret_cases (s : State) :
    (∃ rest top, s.stack = rest ++ [top] ∧ exec .ret s = .next ((s.setStack rest).setPc top)) ∨
    (s.stack = [] ∧ exec .ret s = .next (s.takeFatal (.stackUnderflow s.pc))) := by
  rcases List.eq_nil_or_concat s.stack with h | ⟨rest, top, h⟩
  · exact .inr ⟨h, by simp only [exec, execRet, State.pop_empty h, State.orHalt_error]⟩
  · rw [List.concat_eq_append] at h
    exact .inl ⟨rest, top, h, by simp only [exec, execRet, State.pop_top h, State.orHalt_ok]⟩

/-- 2nnn pushes the return address, or takes StackOverflow. -/
theorem exec_call_cases (nnn : Word) (s : State) :
    (s.stack.length < 16 ∧
      exec (.call nnn) s = .next ((s.setStack (s.stack ++ [s.pc + 2])).setPc nnn)) ∨
    (16 ≤ s.stack.length ∧ exec (.call nnn) s = .next (s.takeFatal (.stackOverflow s.pc))) := by
  by_cases h : s.stack.length < 16
  · exact .inl ⟨h, by simp only [exec, execCall, State.push_ok _ h, State.orHalt_ok]⟩
  · have h' : 16 ≤ s.stack.length := by omega
    exact .inr ⟨h', by simp only [exec, execCall, State.push_full _ h', State.orHalt_error]⟩

/-- A store at `I` answers a memory, or MemoryFault at the first address out of range. -/
theorem State.writeAtI_all (s : State) (bs : List Byte) (hb : bs ≠ []) :
    (s.i.toNat + bs.length ≤ 4096 ∧ ∃ m, s.writeAtI bs = .ok (s.setMem m) ∧
      (s.mem.wf = true → m.wf = true)) ∨
    (4096 < s.i.toNat + bs.length ∧
      s.writeAtI bs = .error (.memoryFault s.pc (max s.i.toNat 4096))) := by
  by_cases h : 4096 < s.i.toNat + bs.length
  · exact .inr ⟨h, State.writeAtI_error h hb⟩
  · cases hw : s.writeAtI bs with
    | ok t =>
      obtain ⟨m, rfl, hm⟩ := State.writeAtI_cases hw
      exact .inl ⟨by omega, m, rfl, hm⟩
    | error e =>
      exact absurd hw (State.writeAtI_isOk (by omega) e)

/-- Fx33 stores its digits, or takes MemoryFault. -/
theorem exec_ldBVx_cases (x : RegIx) (s : State) :
    (s.i.toNat + 3 ≤ 4096 ∧ ∃ m, s.writeAtI (bcdDigits (s.reg x)) = .ok (s.setMem m) ∧
      (s.mem.wf = true → m.wf = true) ∧ exec (.ldBVx x) s = .next (s.setMem m).advance) ∨
    (4096 < s.i.toNat + 3 ∧
      exec (.ldBVx x) s = .next (s.takeFatal (.memoryFault s.pc (max s.i.toNat 4096)))) := by
  rcases s.writeAtI_all (bcdDigits (s.reg x)) (by simp [bcdDigits]) with ⟨h, m, hw, hm⟩ | ⟨h, hw⟩
  · exact .inl ⟨h, m, hw, hm, by simp only [exec, execLdBVx, hw, State.orHalt_ok]⟩
  · exact .inr ⟨h, by simp only [exec, execLdBVx, hw, State.orHalt_error]⟩

/-- Fx55 stores its registers and moves `I` on, or takes MemoryFault. -/
theorem exec_ldMIVx_cases (x : RegIx) (s : State) :
    (s.i.toNat + (x.val + 1) ≤ 4096 ∧ ∃ m, s.writeAtI (s.regsUpTo x) = .ok (s.setMem m) ∧
      (s.mem.wf = true → m.wf = true) ∧ exec (.ldMIVx x) s = .next ((s.setMem m).bumpI x).advance) ∨
    (4096 < s.i.toNat + (x.val + 1) ∧
      exec (.ldMIVx x) s = .next (s.takeFatal (.memoryFault s.pc (max s.i.toNat 4096)))) := by
  have hne : s.regsUpTo x ≠ [] := by
    intro e
    have := s.regsUpTo_length x
    rw [e] at this
    simp at this
  rcases s.writeAtI_all (s.regsUpTo x) hne with ⟨h, m, hw, hm⟩ | ⟨h, hw⟩
  · rw [State.regsUpTo_length] at h
    exact .inl ⟨h, m, hw, hm, by simp only [exec, execLdMIVx, hw, State.orHalt_ok]⟩
  · rw [State.regsUpTo_length] at h
    exact .inr ⟨h, by simp only [exec, execLdMIVx, hw, State.orHalt_error]⟩

/-- Fx65 loads its registers and moves `I` on, or takes MemoryFault. -/
theorem exec_ldVxMI_cases (x : RegIx) (s : State) :
    (s.i.toNat + (x.val + 1) ≤ 4096 ∧ exec (.ldVxMI x) s = .next
      (((s.loadRegs ((List.range (x.val + 1)).map fun k => s.mem.get (s.i.toNat + k))).bumpI x).advance)) ∨
    (4096 < s.i.toNat + (x.val + 1) ∧
      exec (.ldVxMI x) s = .next (s.takeFatal (.memoryFault s.pc (max s.i.toNat 4096)))) := by
  by_cases h : s.i.toNat + (x.val + 1) ≤ 4096
  · exact .inl ⟨h, by simp only [exec, execLdVxMI, State.readAtI_ok h, State.orHalt_ok]⟩
  · have h' : 4096 < s.i.toNat + (x.val + 1) := by omega
    exact .inr ⟨h', by
      simp only [exec, execLdVxMI, State.readAtI_error h' (Nat.succ_pos _), State.orHalt_error]⟩

/-- Dxyn draws the rows at `I`, or takes MemoryFault. -/
theorem exec_drw_cases (x y : RegIx) (n : Nat) (s : State) :
    ((n = 0 ∨ s.i.toNat + n ≤ 4096) ∧ exec (.drw x y n) s = .next
      (s.draw x y ((List.range n).map fun k => s.mem.get (s.i.toNat + k))).advance) ∨
    (0 < n ∧ 4096 < s.i.toNat + n ∧
      exec (.drw x y n) s = .next (s.takeFatal (.memoryFault s.pc (max s.i.toNat 4096)))) := by
  by_cases hn : n = 0
  · subst hn
    exact .inl ⟨.inl rfl, rfl⟩
  · by_cases h : s.i.toNat + n ≤ 4096
    · exact .inl ⟨.inr h, by simp only [exec, execDrw, State.readAtI_ok h, State.orHalt_ok]⟩
    · have h' : 4096 < s.i.toNat + n := by omega
      have hn' : 0 < n := by omega
      exact .inr ⟨hn', h', by simp only [exec, execDrw, State.readAtI_error h' hn', State.orHalt_error]⟩

/-! ### The inversion of exec -/

/-- What the state `t` is when instruction `i`, run from `s`, completes without raising. -/
def Completes : Instr → State → State → Prop
  | .cls, s, t => t = (s.setFb Framebuffer.clear).advance
  | .jp nnn, s, t => t = s.setPc nnn
  | .jpV0 nnn, s, t => t = s.setPc (nnn + (s.reg 0).setWidth 16)
  | .seVxKk x kk, s, t => t = s.skipIf (s.reg x = kk)
  | .sneVxKk x kk, s, t => t = s.skipIf (s.reg x ≠ kk)
  | .seVxVy x y, s, t => t = s.skipIf (s.reg x = s.reg y)
  | .sneVxVy x y, s, t => t = s.skipIf (s.reg x ≠ s.reg y)
  | .ldVxKk x kk, s, t => t = (s.setReg x kk).advance
  | .addVxKk x kk, s, t => t = (s.setReg x (s.reg x + kk)).advance
  | .ldVxVy x y, s, t => t = (s.setReg x (s.reg y)).advance
  | .orVxVy x y, s, t => t = (s.setReg x (s.reg x ||| s.reg y)).advance
  | .andVxVy x y, s, t => t = (s.setReg x (s.reg x &&& s.reg y)).advance
  | .xorVxVy x y, s, t => t = (s.setReg x (s.reg x ^^^ s.reg y)).advance
  | .addVxVy x y, s, t => t = (s.setResultFlag x (s.reg x + s.reg y) (carryFlag (s.reg x) (s.reg y))).advance
  | .sub x y, s, t => t = (s.setResultFlag x (s.reg x - s.reg y) (greaterFlag (s.reg x) (s.reg y))).advance
  | .shr x _, s, t => t = (s.setResultFlag x (s.reg x >>> 1) (lowBitFlag (s.reg x))).advance
  | .subn x y, s, t => t = (s.setResultFlag x (s.reg y - s.reg x) (greaterFlag (s.reg y) (s.reg x))).advance
  | .shl x _, s, t => t = (s.setResultFlag x (s.reg x <<< 1) (highBitFlag (s.reg x))).advance
  | .ldINnn nnn, s, t => t = (s.setI nnn).advance
  | .rnd x kk, s, t => t = (s.drewRandom.setReg x (s.randomByte &&& kk)).advance
  | .skp x, s, t => t = s.skipIf (s.keyIs (s.reg x))
  | .sknp x, s, t => t = s.skipIf (!s.keyIs (s.reg x))
  | .ldVxDt x, s, t => t = (s.setReg x s.dt).advance
  | .ldVxK x, s, t => t = (s.drewKey.setReg x s.keyByte).advance
  | .ldDtVx x, s, t => t = (s.setDt (s.reg x)).advance
  | .ldStVx x, s, t => t = (s.setSt (s.reg x)).advance
  | .addIVx x, s, t => t = (s.setI (s.i + (s.reg x).setWidth 16)).advance
  | .ldFVx x, s, t => t = (s.setI (glyphOffset (s.reg x))).advance
  | .ret, s, t => ∃ rest top, s.stack = rest ++ [top] ∧ t = (s.setStack rest).setPc top
  | .call nnn, s, t =>
    s.stack.length < 16 ∧ t = (s.setStack (s.stack ++ [s.pc + 2])).setPc nnn
  | .ldBVx x, s, t =>
    ∃ m, s.writeAtI (bcdDigits (s.reg x)) = .ok (s.setMem m) ∧ (s.mem.wf = true → m.wf = true) ∧
      t = (s.setMem m).advance
  | .ldMIVx x, s, t =>
    ∃ m, s.writeAtI (s.regsUpTo x) = .ok (s.setMem m) ∧ (s.mem.wf = true → m.wf = true) ∧
      t = ((s.setMem m).bumpI x).advance
  | .ldVxMI x, s, t =>
    t = ((s.loadRegs ((List.range (x.val + 1)).map fun k => s.mem.get (s.i.toNat + k))).bumpI x).advance
  | .drw x y n, s, t =>
    t = (s.draw x y ((List.range n).map fun k => s.mem.get (s.i.toNat + k))).advance

/-- The fatal error that instruction `i`, run from `s`, raises (60_exceptions.md R240, the column
"raised by"). -/
def Raises : Instr → State → Fault → Prop
  | .ret, s, e => s.stack = [] ∧ e = .stackUnderflow s.pc
  | .call _, s, e => 16 ≤ s.stack.length ∧ e = .stackOverflow s.pc
  | .ldBVx _, s, e => 4096 < s.i.toNat + 3 ∧ e = .memoryFault s.pc (max s.i.toNat 4096)
  | .ldMIVx x, s, e => 4096 < s.i.toNat + (x.val + 1) ∧ e = .memoryFault s.pc (max s.i.toNat 4096)
  | .ldVxMI x, s, e => 4096 < s.i.toNat + (x.val + 1) ∧ e = .memoryFault s.pc (max s.i.toNat 4096)
  | .drw _ _ n, s, e =>
    0 < n ∧ 4096 < s.i.toNat + n ∧ e = .memoryFault s.pc (max s.i.toNat 4096)
  | _, _, _ => False

/-- Every instruction answers a next state: it completes, or it raises and takes that fatal error, which
then is the only change. -/
theorem exec_effect (i : Instr) (s : State) :
    ∃ t, exec i s = .next t ∧ (Completes i s t ∨ ∃ e, Raises i s e ∧ t = s.takeFatal e) := by
  cases i with
  | ret =>
    rcases exec_ret_cases s with ⟨rest, top, hst, h⟩ | ⟨hst, h⟩
    · exact ⟨_, h, .inl ⟨rest, top, hst, rfl⟩⟩
    · exact ⟨_, h, .inr ⟨_, ⟨hst, rfl⟩, rfl⟩⟩
  | call nnn =>
    rcases exec_call_cases nnn s with ⟨hst, h⟩ | ⟨hst, h⟩
    · exact ⟨_, h, .inl ⟨hst, rfl⟩⟩
    · exact ⟨_, h, .inr ⟨_, ⟨hst, rfl⟩, rfl⟩⟩
  | ldBVx x =>
    rcases exec_ldBVx_cases x s with ⟨_, m, hw, hm, h⟩ | ⟨ho, h⟩
    · exact ⟨_, h, .inl ⟨m, hw, hm, rfl⟩⟩
    · exact ⟨_, h, .inr ⟨_, ⟨ho, rfl⟩, rfl⟩⟩
  | ldMIVx x =>
    rcases exec_ldMIVx_cases x s with ⟨_, m, hw, hm, h⟩ | ⟨ho, h⟩
    · exact ⟨_, h, .inl ⟨m, hw, hm, rfl⟩⟩
    · exact ⟨_, h, .inr ⟨_, ⟨ho, rfl⟩, rfl⟩⟩
  | ldVxMI x =>
    rcases exec_ldVxMI_cases x s with ⟨_, h⟩ | ⟨ho, h⟩
    · exact ⟨_, h, .inl rfl⟩
    · exact ⟨_, h, .inr ⟨_, ⟨ho, rfl⟩, rfl⟩⟩
  | drw x y n =>
    rcases exec_drw_cases x y n s with ⟨_, h⟩ | ⟨hn, ho, h⟩
    · exact ⟨_, h, .inl rfl⟩
    · exact ⟨_, h, .inr ⟨_, ⟨hn, ho, rfl⟩, rfl⟩⟩
  | _ => exact ⟨_, rfl, .inl rfl⟩

/-- What follows from an answer of `exec`. -/
theorem exec_next {i : Instr} {s t : State} (h : exec i s = .next t) :
    Completes i s t ∨ ∃ e, Raises i s e ∧ t = s.takeFatal e := by
  obtain ⟨u, hu, hc⟩ := exec_effect i s
  rw [hu] at h
  cases h
  exact hc

/-! ### State.draw, field by field -/

@[simp] theorem State.draw_i (s : State) (x y : RegIx) (bs : List Byte) : (s.draw x y bs).i = s.i := rfl
@[simp] theorem State.draw_pc (s : State) (x y : RegIx) (bs : List Byte) : (s.draw x y bs).pc = s.pc := rfl
@[simp] theorem State.draw_stack (s : State) (x y : RegIx) (bs : List Byte) : (s.draw x y bs).stack = s.stack := rfl
@[simp] theorem State.draw_dt (s : State) (x y : RegIx) (bs : List Byte) : (s.draw x y bs).dt = s.dt := rfl
@[simp] theorem State.draw_st (s : State) (x y : RegIx) (bs : List Byte) : (s.draw x y bs).st = s.st := rfl
@[simp] theorem State.draw_key (s : State) (x y : RegIx) (bs : List Byte) : (s.draw x y bs).key = s.key := rfl
@[simp] theorem State.draw_mem (s : State) (x y : RegIx) (bs : List Byte) : (s.draw x y bs).mem = s.mem := rfl
@[simp] theorem State.draw_status (s : State) (x y : RegIx) (bs : List Byte) : (s.draw x y bs).status = s.status := rfl
@[simp] theorem State.draw_started (s : State) (x y : RegIx) (bs : List Byte) : (s.draw x y bs).started = s.started := rfl
@[simp] theorem State.draw_result (s : State) (x y : RegIx) (bs : List Byte) : (s.draw x y bs).result = s.result := rfl
@[simp] theorem State.draw_rngDraws (s : State) (x y : RegIx) (bs : List Byte) : (s.draw x y bs).rngDraws = s.rngDraws := rfl
@[simp] theorem State.draw_keyDraws (s : State) (x y : RegIx) (bs : List Byte) : (s.draw x y bs).keyDraws = s.keyDraws := rfl
@[simp] theorem State.draw_fb (s : State) (x y : RegIx) (bs : List Byte) :
    (s.draw x y bs).fb = (drawSprite s.fb (s.reg x).toNat (s.reg y).toNat bs).fb := rfl

/-- The registers after a draw: VF is the collision, the rest are as before. -/
theorem State.draw_reg (s : State) (x y r : RegIx) (bs : List Byte) :
    (s.draw x y bs).reg r =
      if r = 15 then flagByte (drawSprite s.fb (s.reg x).toNat (s.reg y).toNat bs).coll else s.reg r := by
  simp [State.draw, State.setFlag_reg]

end Sys2Proof.Machine
end

