-- ==== Sys2Proof/Laws/Run.lean ====
section
/-! SUPPORT. What a step and a run of steps do, from what the meanings do. -/

namespace Sys2Proof.Machine

theorem run_zero (s : State) : core.run 0 s = .next s := rfl

/-- A run goes on from the state its first step answers. -/
theorem run_succ {s t : State} (h : step s = .next t) (k : Nat) : core.run (k + 1) s = core.run k t := by
  have h' : core.step s = .next t := h
  simp only [Host.Core.run, h']

/-- Only one word can be fetched. -/
theorem FetchesWord.unique {s : State} {w w' : Word} (h : FetchesWord s w) (h' : FetchesWord s w') :
    w = w' := by
  rw [h.word, h'.word]

/-- A running machine with both bytes in range fetches the word of its two bytes. -/
theorem fetchesWord_of_running {s : State} (hs : s.status = .running) (hp : s.pc.toNat + 1 < 4096) :
    FetchesWord s (composeWord (s.mem.get s.pc.toNat) (s.mem.get (s.pc.toNat + 1))) :=
  ⟨hs, hp, composeWord_toNat _ _⟩

/-- Everything a step that answered `t` can have been: a halted machine's, a fetch out of range, an
instruction that completed, an instruction that raised, or an unmapped word. -/
theorem step_next {s t : State} (h : step s = .next t) :
    (∃ e, s.status = .halted e ∧ t = s.haltedStep e) ∨
    (s.status = .running ∧ 4096 ≤ s.pc.toNat + 1 ∧
      t = s.beginStep.takeFatal (.memoryFault s.pc s.pc.toNat)) ∨
    (∃ w i, FetchesWord s w ∧ decode w = .insn i ∧ Completes i s.beginStep t) ∨
    (∃ w i e, FetchesWord s w ∧ decode w = .insn i ∧ Raises i s.beginStep e ∧
      t = s.beginStep.takeFatal e) ∨
    (∃ w, FetchesWord s w ∧ decode w = .unknown w ∧ t = s.beginStep.warnUnknown w) := by
  rcases step_cases s with ⟨e, h1, h2⟩ | ⟨h1, h2, h3⟩ | ⟨w, i, h1, h2, h3⟩ | ⟨w, h1, h2, h3⟩
  · rw [h2] at h; cases h; exact .inl ⟨e, h1, rfl⟩
  · rw [h3] at h; cases h; exact .inr (.inl ⟨h1, h2, rfl⟩)
  · rw [h3] at h
    rcases exec_next h with hc | ⟨e, hr, rfl⟩
    · exact .inr (.inr (.inl ⟨w, i, h1, h2, hc⟩))
    · exact .inr (.inr (.inr (.inl ⟨w, i, e, h1, h2, hr, rfl⟩)))
  · rw [h3] at h; cases h; exact .inr (.inr (.inr (.inr ⟨w, h1, h2, rfl⟩)))

/-- The host's word is the one the next step fetches. -/
theorem withFetchWord_fetches {s : State} (hm : s.mem.wf = true) (nbits w : Nat) :
    FetchesWord (s.withFetchWord nbits w) (tableWord nbits w) := by
  have hp : (s.readyToFetch).pc.toNat + 1 < 4096 := by
    show (if s.pc.toNat + 1 < 4096 then s.pc else 0x200).toNat + 1 < 4096
    by_cases h : s.pc.toNat + 1 < 4096
    · rw [if_pos h]; exact h
    · rw [if_neg h]; decide
  have hm' : s.readyToFetch.mem.wf = true := hm
  refine ⟨rfl, hp, ?_⟩
  have h1 := Memory.wf_set (a := s.readyToFetch.pc.toNat) (highByte (tableWord nbits w)) hm' (by omega)
  have e1 : (s.withFetchWord nbits w).pc = s.readyToFetch.pc := rfl
  have e2 : (s.withFetchWord nbits w).mem =
      (s.readyToFetch.mem.set s.readyToFetch.pc.toNat (highByte (tableWord nbits w))).set
        (s.readyToFetch.pc.toNat + 1) (lowByte (tableWord nbits w)) := rfl
  rw [e1, e2, Memory.get_set h1, Memory.get_set h1, Memory.get_set hm', if_neg (by omega), if_pos rfl,
    if_pos rfl, ← composeWord_toNat, composeWord_bytes]

end Sys2Proof.Machine
end

