-- ==== Sys2Proof/Laws/HostPort.lean ====
section
/-! SUPPORT. What the calls of the host answer, in every case. -/

namespace Sys2Proof.Machine

/-- Bytes put at rising addresses inside the space: each reads back, every other byte is as before, and
the memory stays canonical. -/
theorem Memory.setAll_spec {m : Memory} {bs : List Byte} {a : Nat} (hm : m.wf = true)
    (h : a + bs.length ≤ 4096) :
    (m.setAll a bs).wf = true ∧ ∀ b, (m.setAll a bs).get b =
      if a ≤ b ∧ b < a + bs.length then bs.getD (b - a) 0 else m.get b := by
  induction bs generalizing m a with
  | nil =>
    refine ⟨hm, fun b => ?_⟩
    rw [if_neg (by simp)]
    rfl
  | cons u us ih =>
    simp only [List.length_cons] at h
    obtain ⟨h1, h2⟩ := ih (Memory.wf_set (a := a) u hm (by omega)) (a := a + 1) (by omega)
    refine ⟨h1, fun b => ?_⟩
    show ((m.set a u).setAll (a + 1) us).get b = _
    rw [h2, Memory.get_set hm]
    by_cases hb : b = a
    · subst hb
      simp
    · by_cases hb2 : a + 1 ≤ b ∧ b < a + 1 + us.length
      · have e : b - a = (b - (a + 1)) + 1 := by omega
        rw [if_pos hb2, if_pos (by simp only [List.length_cons]; omega), e, List.getD_cons_succ]
      · rw [if_neg hb2, if_neg (by omega), if_neg (by simp only [List.length_cons]; omega)]

/-- Construction leaves the state of `State.reset`, but for the two draw counters, which run on. -/
theorem hostConstruct_changesOnly (s : State) :
    ChangesOnly {.rngDraws, .keyDraws} State.reset (hostConstruct s) := by
  intro p hp
  cases p <;> first | rfl | simp at hp

@[simp] theorem hostConstruct_rngDraws (s : State) : (hostConstruct s).rngDraws = s.rngDraws := rfl
@[simp] theorem hostConstruct_keyDraws (s : State) : (hostConstruct s).keyDraws = s.keyDraws := rfl
@[simp] theorem hostConstruct_mem (s : State) : (hostConstruct s).mem = State.reset.mem := rfl
@[simp] theorem hostConstruct_stack (s : State) : (hostConstruct s).stack = State.reset.stack := rfl
@[simp] theorem hostConstruct_status (s : State) : (hostConstruct s).status = .running := rfl
@[simp] theorem hostConstruct_started (s : State) : (hostConstruct s).started = false := rfl
@[simp] theorem hostConstruct_result (s : State) : (hostConstruct s).result = none := rfl

/-- A load before the first step of an image that fits copies it. -/
theorem hostLoad_ok {s : State} {bytes : List Byte} (hs : s.started = false) (hl : bytes.length ≤ 3584) :
    hostLoad bytes s = .next (.ok bytes.length, s.setMem (s.mem.setAll 0x200 bytes)) := by
  have hn : ¬ Config.maxRom < bytes.length := Nat.not_lt.mpr hl
  unfold hostLoad
  rw [if_neg (by simp [hs]), if_neg hn, Config.progBase]

/-- A load before the first step of an image that does not fit changes nothing. -/
theorem hostLoad_tooLong {s : State} {bytes : List Byte} (hs : s.started = false)
    (hl : 3584 < bytes.length) : hostLoad bytes s = .next (.romTooLarge bytes.length, s) := by
  have hn : Config.maxRom < bytes.length := hl
  unfold hostLoad
  rw [if_neg (by simp [hs]), if_pos hn]

/-- A load after the first step is refused. -/
theorem hostLoad_started {s : State} {bytes : List Byte} (hs : s.started = true) :
    hostLoad bytes s = .refused .loadAfterStart := by
  simp [hostLoad, hs]

@[simp] theorem hostSetKey_none (s : State) : hostSetKey none s = .next (s.setKey none) := rfl

theorem hostSetKey_key (s : State) {k : Nat} (h : k < 16) :
    hostSetKey (some k) s = .next (s.setKey (some ⟨k, h⟩)) := by
  simp [hostSetKey, h]

theorem hostSetKey_outOfRange (s : State) {k : Nat} (h : 16 ≤ k) :
    hostSetKey (some k) s = .refused (.keyOutOfRange k) := by
  simp [hostSetKey, Nat.not_lt.mpr h]

end Sys2Proof.Machine
end

