-- ==== Sys2Proof/Laws/PerInstr.lean ====
section
/-! SUPPORT. Per-instruction laws. The family EncodeInRow: the word that encodes a well-formed
instruction is in one row of the opcode map (30_encoding.md R83), and the fields of that word give the
instruction's operands back. -/

namespace Sys2Proof.Laws.EncodeInRow

/-- The encoded word is in a row of the opcode map whose fields rebuild the instruction. -/
def Statement (i : Instr) : Prop :=
  i.WellFormed → ∃ r ∈ opcodeTable, encode i &&& r.mask = r.pat ∧ r.build (encode i) = i

/-! ### The fields of an encoded word -/

theorem nnn_back {f : Nat} {nnn : Word} (hf : f < 16) (h : nnn.toNat < 4096) :
    fieldNnn (wordFNnn f nnn) = nnn := by
  apply BitVec.eq_of_toNat_eq
  rw [fieldNnn_toNat, wordFNnn_toNat hf h]
  omega

theorem x_back_kk {f kk : Nat} (x : RegIx) (hf : f < 16) (h : kk < 256) :
    fieldX (wordFXKk f x kk) = x := by
  have := x.isLt
  apply Fin.ext
  rw [fieldX_val, wordFXKk_toNat x hf h]
  omega

theorem kk_back {f : Nat} (x : RegIx) (kk : Byte) (hf : f < 16) :
    fieldKk (wordFXKk f x kk.toNat) = kk := by
  have := kk.isLt
  apply BitVec.eq_of_toNat_eq
  rw [fieldKk_toNat, wordFXKk_toNat x hf (by omega)]
  omega

theorem x_back {f n : Nat} (x y : RegIx) (hf : f < 16) (h : n < 16) : fieldX (wordFXYN f x y n) = x := by
  have := x.isLt
  have := y.isLt
  apply Fin.ext
  rw [fieldX_val, wordFXYN_toNat x y hf h]
  omega

theorem y_back {f n : Nat} (x y : RegIx) (hf : f < 16) (h : n < 16) : fieldY (wordFXYN f x y n) = y := by
  have := x.isLt
  have := y.isLt
  apply Fin.ext
  rw [fieldY_val, wordFXYN_toNat x y hf h]
  omega

theorem n_back {f n : Nat} (x y : RegIx) (hf : f < 16) (h : n < 16) : fieldN (wordFXYN f x y n) = n := by
  rw [fieldN_eq, wordFXYN_toNat x y hf h]
  omega

/-! ### The row of an encoded word -/

theorem in_row_F000 {w p : Word} (h : w.toNat / 4096 * 4096 = p.toNat) : w &&& 0xF000 = p := by
  apply BitVec.eq_of_toNat_eq
  rw [and_mask_F000, h]

theorem in_row_F00F {w p : Word} (h : w.toNat / 4096 * 4096 + w.toNat % 16 = p.toNat) :
    w &&& 0xF00F = p := by
  apply BitVec.eq_of_toNat_eq
  rw [and_mask_F00F, h]

theorem in_row_F0FF {w p : Word} (h : w.toNat / 4096 * 4096 + w.toNat % 256 = p.toNat) :
    w &&& 0xF0FF = p := by
  apply BitVec.eq_of_toNat_eq
  rw [and_mask_F0FF, h]

theorem row_FNnn {f : Nat} {p nnn : Word} (hf : f < 16) (h : nnn.toNat < 4096) (hp : p.toNat = f * 4096) :
    wordFNnn f nnn &&& 0xF000 = p :=
  in_row_F000 (by have e := wordFNnn_toNat hf h; omega)

theorem row_FXKk {f : Nat} {p : Word} (x : RegIx) (kk : Byte) (hf : f < 16) (hp : p.toNat = f * 4096) :
    wordFXKk f x kk.toNat &&& 0xF000 = p :=
  in_row_F000 (by
    have := x.isLt
    have := kk.isLt
    have e := wordFXKk_toNat x hf (by omega)
    omega)

theorem row_FXLow {f low : Nat} {p : Word} (x : RegIx) (hf : f < 16) (hl : low < 256)
    (hp : p.toNat = f * 4096 + low) : wordFXKk f x low &&& 0xF0FF = p :=
  in_row_F0FF (by
    have := x.isLt
    have e := wordFXKk_toNat x hf hl
    omega)

theorem row_FXYN {f n : Nat} {p : Word} (x y : RegIx) (hf : f < 16) (hn : n < 16)
    (hp : p.toNat = f * 4096 + n) : wordFXYN f x y n &&& 0xF00F = p :=
  in_row_F00F (by
    have := x.isLt
    have := y.isLt
    have e := wordFXYN_toNat x y hf hn
    omega)

theorem row_FXYAny {f n : Nat} {p : Word} (x y : RegIx) (hf : f < 16) (hn : n < 16)
    (hp : p.toNat = f * 4096) : wordFXYN f x y n &&& 0xF000 = p :=
  in_row_F000 (by
    have := x.isLt
    have := y.isLt
    have e := wordFXYN_toNat x y hf hn
    omega)

/-! ### One lemma per instruction -/

theorem cls : Statement .cls := fun _ => ⟨⟨0x00E0, 0xFFFF, fun _ => .cls⟩, by simp [opcodeTable, opcodeRows1To20], by decide, rfl⟩

theorem ret : Statement .ret := fun _ => ⟨⟨0x00EE, 0xFFFF, fun _ => .ret⟩, by simp [opcodeTable, opcodeRows1To20], by decide, rfl⟩

theorem jp (nnn : Word) : Statement (.jp nnn) := by
  intro h
  have hn : nnn.toNat < 4096 := by simpa [Instr.WellFormed, Instr.wellFormed, addressFits] using h
  refine ⟨⟨0x1000, 0xF000, fun w => .jp (fieldNnn w)⟩, by simp [opcodeTable, opcodeRows1To20], row_FNnn (by omega) hn rfl, ?_⟩
  simp only [encode, nnn_back (show 0x1 < 16 by omega) hn]

theorem jpV0 (nnn : Word) : Statement (.jpV0 nnn) := by
  intro h
  have hn : nnn.toNat < 4096 := by simpa [Instr.WellFormed, Instr.wellFormed, addressFits] using h
  refine ⟨⟨0xB000, 0xF000, fun w => .jpV0 (fieldNnn w)⟩, by simp [opcodeTable, opcodeRows1To20], row_FNnn (by omega) hn rfl, ?_⟩
  simp only [encode, nnn_back (show 0xB < 16 by omega) hn]

theorem call (nnn : Word) : Statement (.call nnn) := by
  intro h
  have hn : nnn.toNat < 4096 := by simpa [Instr.WellFormed, Instr.wellFormed, addressFits] using h
  refine ⟨⟨0x2000, 0xF000, fun w => .call (fieldNnn w)⟩, by simp [opcodeTable, opcodeRows1To20], row_FNnn (by omega) hn rfl, ?_⟩
  simp only [encode, nnn_back (show 0x2 < 16 by omega) hn]

theorem seVxKk (x : RegIx) (kk : Byte) : Statement (.seVxKk x kk) := by
  intro h
  refine ⟨⟨0x3000, 0xF000, fun w => .seVxKk (fieldX w) (fieldKk w)⟩, by simp [opcodeTable, opcodeRows1To20], row_FXKk x kk (by omega) rfl, ?_⟩
  have := kk.isLt
  simp only [encode, x_back_kk x (show 0x3 < 16 by omega) this, kk_back x kk (show 0x3 < 16 by omega)]

theorem sneVxKk (x : RegIx) (kk : Byte) : Statement (.sneVxKk x kk) := by
  intro h
  refine ⟨⟨0x4000, 0xF000, fun w => .sneVxKk (fieldX w) (fieldKk w)⟩, by simp [opcodeTable, opcodeRows1To20], row_FXKk x kk (by omega) rfl, ?_⟩
  have := kk.isLt
  simp only [encode, x_back_kk x (show 0x4 < 16 by omega) this, kk_back x kk (show 0x4 < 16 by omega)]

theorem seVxVy (x y : RegIx) : Statement (.seVxVy x y) := by
  intro h
  refine ⟨⟨0x5000, 0xF00F, fun w => .seVxVy (fieldX w) (fieldY w)⟩, by simp [opcodeTable, opcodeRows1To20], row_FXYN x y (by omega) (by omega) rfl, ?_⟩
  simp only [encode, x_back x y (show 0x5 < 16 by omega) (show 0x0 < 16 by omega),
    y_back x y (show 0x5 < 16 by omega) (show 0x0 < 16 by omega)]

theorem sneVxVy (x y : RegIx) : Statement (.sneVxVy x y) := by
  intro h
  refine ⟨⟨0x9000, 0xF00F, fun w => .sneVxVy (fieldX w) (fieldY w)⟩, by simp [opcodeTable, opcodeRows1To20], row_FXYN x y (by omega) (by omega) rfl, ?_⟩
  simp only [encode, x_back x y (show 0x9 < 16 by omega) (show 0x0 < 16 by omega),
    y_back x y (show 0x9 < 16 by omega) (show 0x0 < 16 by omega)]

theorem ldVxKk (x : RegIx) (kk : Byte) : Statement (.ldVxKk x kk) := by
  intro h
  refine ⟨⟨0x6000, 0xF000, fun w => .ldVxKk (fieldX w) (fieldKk w)⟩, by simp [opcodeTable, opcodeRows1To20], row_FXKk x kk (by omega) rfl, ?_⟩
  have := kk.isLt
  simp only [encode, x_back_kk x (show 0x6 < 16 by omega) this, kk_back x kk (show 0x6 < 16 by omega)]

theorem addVxKk (x : RegIx) (kk : Byte) : Statement (.addVxKk x kk) := by
  intro h
  refine ⟨⟨0x7000, 0xF000, fun w => .addVxKk (fieldX w) (fieldKk w)⟩, by simp [opcodeTable, opcodeRows1To20], row_FXKk x kk (by omega) rfl, ?_⟩
  have := kk.isLt
  simp only [encode, x_back_kk x (show 0x7 < 16 by omega) this, kk_back x kk (show 0x7 < 16 by omega)]

theorem ldVxVy (x y : RegIx) : Statement (.ldVxVy x y) := by
  intro h
  refine ⟨⟨0x8000, 0xF00F, fun w => .ldVxVy (fieldX w) (fieldY w)⟩, by simp [opcodeTable, opcodeRows1To20], row_FXYN x y (by omega) (by omega) rfl, ?_⟩
  simp only [encode, x_back x y (show 0x8 < 16 by omega) (show 0x0 < 16 by omega),
    y_back x y (show 0x8 < 16 by omega) (show 0x0 < 16 by omega)]

theorem orVxVy (x y : RegIx) : Statement (.orVxVy x y) := by
  intro h
  refine ⟨⟨0x8001, 0xF00F, fun w => .orVxVy (fieldX w) (fieldY w)⟩, by simp [opcodeTable, opcodeRows1To20], row_FXYN x y (by omega) (by omega) rfl, ?_⟩
  simp only [encode, x_back x y (show 0x8 < 16 by omega) (show 0x1 < 16 by omega),
    y_back x y (show 0x8 < 16 by omega) (show 0x1 < 16 by omega)]

theorem andVxVy (x y : RegIx) : Statement (.andVxVy x y) := by
  intro h
  refine ⟨⟨0x8002, 0xF00F, fun w => .andVxVy (fieldX w) (fieldY w)⟩, by simp [opcodeTable, opcodeRows1To20], row_FXYN x y (by omega) (by omega) rfl, ?_⟩
  simp only [encode, x_back x y (show 0x8 < 16 by omega) (show 0x2 < 16 by omega),
    y_back x y (show 0x8 < 16 by omega) (show 0x2 < 16 by omega)]

theorem xorVxVy (x y : RegIx) : Statement (.xorVxVy x y) := by
  intro h
  refine ⟨⟨0x8003, 0xF00F, fun w => .xorVxVy (fieldX w) (fieldY w)⟩, by simp [opcodeTable, opcodeRows1To20], row_FXYN x y (by omega) (by omega) rfl, ?_⟩
  simp only [encode, x_back x y (show 0x8 < 16 by omega) (show 0x3 < 16 by omega),
    y_back x y (show 0x8 < 16 by omega) (show 0x3 < 16 by omega)]

theorem addVxVy (x y : RegIx) : Statement (.addVxVy x y) := by
  intro h
  refine ⟨⟨0x8004, 0xF00F, fun w => .addVxVy (fieldX w) (fieldY w)⟩, by simp [opcodeTable, opcodeRows1To20], row_FXYN x y (by omega) (by omega) rfl, ?_⟩
  simp only [encode, x_back x y (show 0x8 < 16 by omega) (show 0x4 < 16 by omega),
    y_back x y (show 0x8 < 16 by omega) (show 0x4 < 16 by omega)]

theorem sub (x y : RegIx) : Statement (.sub x y) := by
  intro h
  refine ⟨⟨0x8005, 0xF00F, fun w => .sub (fieldX w) (fieldY w)⟩, by simp [opcodeTable, opcodeRows1To20], row_FXYN x y (by omega) (by omega) rfl, ?_⟩
  simp only [encode, x_back x y (show 0x8 < 16 by omega) (show 0x5 < 16 by omega),
    y_back x y (show 0x8 < 16 by omega) (show 0x5 < 16 by omega)]

theorem shr (x y : RegIx) : Statement (.shr x y) := by
  intro h
  refine ⟨⟨0x8006, 0xF00F, fun w => .shr (fieldX w) (fieldY w)⟩, by simp [opcodeTable, opcodeRows1To20], row_FXYN x y (by omega) (by omega) rfl, ?_⟩
  simp only [encode, x_back x y (show 0x8 < 16 by omega) (show 0x6 < 16 by omega),
    y_back x y (show 0x8 < 16 by omega) (show 0x6 < 16 by omega)]

theorem subn (x y : RegIx) : Statement (.subn x y) := by
  intro h
  refine ⟨⟨0x8007, 0xF00F, fun w => .subn (fieldX w) (fieldY w)⟩, by simp [opcodeTable, opcodeRows1To20], row_FXYN x y (by omega) (by omega) rfl, ?_⟩
  simp only [encode, x_back x y (show 0x8 < 16 by omega) (show 0x7 < 16 by omega),
    y_back x y (show 0x8 < 16 by omega) (show 0x7 < 16 by omega)]

theorem shl (x y : RegIx) : Statement (.shl x y) := by
  intro h
  refine ⟨⟨0x800E, 0xF00F, fun w => .shl (fieldX w) (fieldY w)⟩, by simp [opcodeTable, opcodeRows1To20], row_FXYN x y (by omega) (by omega) rfl, ?_⟩
  simp only [encode, x_back x y (show 0x8 < 16 by omega) (show 0xE < 16 by omega),
    y_back x y (show 0x8 < 16 by omega) (show 0xE < 16 by omega)]

theorem ldINnn (nnn : Word) : Statement (.ldINnn nnn) := by
  intro h
  have hn : nnn.toNat < 4096 := by simpa [Instr.WellFormed, Instr.wellFormed, addressFits] using h
  refine ⟨⟨0xA000, 0xF000, fun w => .ldINnn (fieldNnn w)⟩, by simp [opcodeTable, opcodeRows21To34], row_FNnn (by omega) hn rfl, ?_⟩
  simp only [encode, nnn_back (show 0xA < 16 by omega) hn]

theorem rnd (x : RegIx) (kk : Byte) : Statement (.rnd x kk) := by
  intro h
  refine ⟨⟨0xC000, 0xF000, fun w => .rnd (fieldX w) (fieldKk w)⟩, by simp [opcodeTable, opcodeRows21To34], row_FXKk x kk (by omega) rfl, ?_⟩
  have := kk.isLt
  simp only [encode, x_back_kk x (show 0xC < 16 by omega) this, kk_back x kk (show 0xC < 16 by omega)]

theorem drw (x y : RegIx) (n : Nat) : Statement (.drw x y n) := by
  intro h
  have hn : n < 16 := by simpa [Instr.WellFormed, Instr.wellFormed, heightFits] using h
  refine ⟨⟨0xD000, 0xF000, fun w => .drw (fieldX w) (fieldY w) (fieldN w)⟩, by simp [opcodeTable, opcodeRows21To34], row_FXYAny x y (by omega) hn rfl, ?_⟩
  simp only [encode, x_back x y (show 0xD < 16 by omega) hn, y_back x y (show 0xD < 16 by omega) hn,
    n_back x y (show 0xD < 16 by omega) hn]

theorem skp (x : RegIx) : Statement (.skp x) := by
  intro h
  refine ⟨⟨0xE09E, 0xF0FF, fun w => .skp (fieldX w)⟩, by simp [opcodeTable, opcodeRows21To34], row_FXLow x (by omega) (by omega) rfl, ?_⟩
  simp only [encode, x_back_kk x (show 0xE < 16 by omega) (show 0x9E < 256 by omega)]

theorem sknp (x : RegIx) : Statement (.sknp x) := by
  intro h
  refine ⟨⟨0xE0A1, 0xF0FF, fun w => .sknp (fieldX w)⟩, by simp [opcodeTable, opcodeRows21To34], row_FXLow x (by omega) (by omega) rfl, ?_⟩
  simp only [encode, x_back_kk x (show 0xE < 16 by omega) (show 0xA1 < 256 by omega)]

theorem ldVxDt (x : RegIx) : Statement (.ldVxDt x) := by
  intro h
  refine ⟨⟨0xF007, 0xF0FF, fun w => .ldVxDt (fieldX w)⟩, by simp [opcodeTable, opcodeRows21To34], row_FXLow x (by omega) (by omega) rfl, ?_⟩
  simp only [encode, x_back_kk x (show 0xF < 16 by omega) (show 0x07 < 256 by omega)]

theorem ldVxK (x : RegIx) : Statement (.ldVxK x) := by
  intro h
  refine ⟨⟨0xF00A, 0xF0FF, fun w => .ldVxK (fieldX w)⟩, by simp [opcodeTable, opcodeRows21To34], row_FXLow x (by omega) (by omega) rfl, ?_⟩
  simp only [encode, x_back_kk x (show 0xF < 16 by omega) (show 0x0A < 256 by omega)]

theorem ldDtVx (x : RegIx) : Statement (.ldDtVx x) := by
  intro h
  refine ⟨⟨0xF015, 0xF0FF, fun w => .ldDtVx (fieldX w)⟩, by simp [opcodeTable, opcodeRows21To34], row_FXLow x (by omega) (by omega) rfl, ?_⟩
  simp only [encode, x_back_kk x (show 0xF < 16 by omega) (show 0x15 < 256 by omega)]

theorem ldStVx (x : RegIx) : Statement (.ldStVx x) := by
  intro h
  refine ⟨⟨0xF018, 0xF0FF, fun w => .ldStVx (fieldX w)⟩, by simp [opcodeTable, opcodeRows21To34], row_FXLow x (by omega) (by omega) rfl, ?_⟩
  simp only [encode, x_back_kk x (show 0xF < 16 by omega) (show 0x18 < 256 by omega)]

theorem addIVx (x : RegIx) : Statement (.addIVx x) := by
  intro h
  refine ⟨⟨0xF01E, 0xF0FF, fun w => .addIVx (fieldX w)⟩, by simp [opcodeTable, opcodeRows21To34], row_FXLow x (by omega) (by omega) rfl, ?_⟩
  simp only [encode, x_back_kk x (show 0xF < 16 by omega) (show 0x1E < 256 by omega)]

theorem ldFVx (x : RegIx) : Statement (.ldFVx x) := by
  intro h
  refine ⟨⟨0xF029, 0xF0FF, fun w => .ldFVx (fieldX w)⟩, by simp [opcodeTable, opcodeRows21To34], row_FXLow x (by omega) (by omega) rfl, ?_⟩
  simp only [encode, x_back_kk x (show 0xF < 16 by omega) (show 0x29 < 256 by omega)]

theorem ldBVx (x : RegIx) : Statement (.ldBVx x) := by
  intro h
  refine ⟨⟨0xF033, 0xF0FF, fun w => .ldBVx (fieldX w)⟩, by simp [opcodeTable, opcodeRows21To34], row_FXLow x (by omega) (by omega) rfl, ?_⟩
  simp only [encode, x_back_kk x (show 0xF < 16 by omega) (show 0x33 < 256 by omega)]

theorem ldMIVx (x : RegIx) : Statement (.ldMIVx x) := by
  intro h
  refine ⟨⟨0xF055, 0xF0FF, fun w => .ldMIVx (fieldX w)⟩, by simp [opcodeTable, opcodeRows21To34], row_FXLow x (by omega) (by omega) rfl, ?_⟩
  simp only [encode, x_back_kk x (show 0xF < 16 by omega) (show 0x55 < 256 by omega)]

theorem ldVxMI (x : RegIx) : Statement (.ldVxMI x) := by
  intro h
  refine ⟨⟨0xF065, 0xF0FF, fun w => .ldVxMI (fieldX w)⟩, by simp [opcodeTable, opcodeRows21To34], row_FXLow x (by omega) (by omega) rfl, ?_⟩
  simp only [encode, x_back_kk x (show 0xF < 16 by omega) (show 0x65 < 256 by omega)]

end Sys2Proof.Laws.EncodeInRow
end

