-- ==== Sys2Proof/Tests/Slice0.lean ====
section
/-! SUPPORT. Tests: the well-formedness checks, a word of every instruction written out from its row of
30_encoding.md R83, single steps with the values of 95_test_vectors.md, and for each statement with
hypotheses a witness that meets them. -/

namespace Sys2Proof.Tests

open Sys2Proof Sys2Proof.Machine

/-! ### Ill-formed terms are refused -/

theorem test_wellFormed_jp : Instr.wellFormed (.jp 0x1000) = false := by decide
theorem test_wellFormed_jpV0 : Instr.wellFormed (.jpV0 0x1000) = false := by decide
theorem test_wellFormed_call : Instr.wellFormed (.call 0x1000) = false := by decide
theorem test_wellFormed_ldINnn : Instr.wellFormed (.ldINnn 0xF000) = false := by decide
theorem test_wellFormed_drw : Instr.wellFormed (.drw 0 0 16) = false := by decide
theorem test_wellFormed_boundary :
    Instr.wellFormed (.jp 0x0FFF) = true ∧ Instr.wellFormed (.drw 15 15 15) = true := by decide

/-! ### A word of every instruction, from its row of R83 -/

theorem test_word_cls : decode 0b0000000011100000 = .insn .cls ∧
    encode .cls = 0b0000000011100000 := by decide
theorem test_word_ret : decode 0b0000000011101110 = .insn .ret ∧
    encode .ret = 0b0000000011101110 := by decide
theorem test_word_jp : decode 0b0001001000110100 = .insn (.jp 0x234) ∧
    encode (.jp 0x234) = 0b0001001000110100 := by decide
theorem test_word_jpV0 : decode 0b1011001100000001 = .insn (.jpV0 0x301) ∧
    encode (.jpV0 0x301) = 0b1011001100000001 := by decide
theorem test_word_call : decode 0b0010010000000010 = .insn (.call 0x402) ∧
    encode (.call 0x402) = 0b0010010000000010 := by decide
theorem test_word_seVxKk : decode 0b0011000100010010 = .insn (.seVxKk 1 0x12) ∧
    encode (.seVxKk 1 0x12) = 0b0011000100010010 := by decide
theorem test_word_sneVxKk : decode 0b0100001100010010 = .insn (.sneVxKk 3 0x12) ∧
    encode (.sneVxKk 3 0x12) = 0b0100001100010010 := by decide
theorem test_word_seVxVy : decode 0b0101001000010000 = .insn (.seVxVy 2 1) ∧
    encode (.seVxVy 2 1) = 0b0101001000010000 := by decide
theorem test_word_sneVxVy : decode 0b1001001000010000 = .insn (.sneVxVy 2 1) ∧
    encode (.sneVxVy 2 1) = 0b1001001000010000 := by decide
theorem test_word_ldVxKk : decode 0b0110101000111100 = .insn (.ldVxKk 10 0x3C) ∧
    encode (.ldVxKk 10 0x3C) = 0b0110101000111100 := by decide
theorem test_word_addVxKk : decode 0b0111101000000001 = .insn (.addVxKk 10 0x01) ∧
    encode (.addVxKk 10 0x01) = 0b0111101000000001 := by decide
theorem test_word_ldVxVy : decode 0b1000000100100000 = .insn (.ldVxVy 1 2) ∧
    encode (.ldVxVy 1 2) = 0b1000000100100000 := by decide
theorem test_word_orVxVy : decode 0b1000000100100001 = .insn (.orVxVy 1 2) ∧
    encode (.orVxVy 1 2) = 0b1000000100100001 := by decide
theorem test_word_andVxVy : decode 0b1000000100100010 = .insn (.andVxVy 1 2) ∧
    encode (.andVxVy 1 2) = 0b1000000100100010 := by decide
theorem test_word_xorVxVy : decode 0b1000000100100011 = .insn (.xorVxVy 1 2) ∧
    encode (.xorVxVy 1 2) = 0b1000000100100011 := by decide
theorem test_word_addVxVy : decode 0b1000000100100100 = .insn (.addVxVy 1 2) ∧
    encode (.addVxVy 1 2) = 0b1000000100100100 := by decide
theorem test_word_sub : decode 0b1000000100100101 = .insn (.sub 1 2) ∧
    encode (.sub 1 2) = 0b1000000100100101 := by decide
theorem test_word_shr : decode 0b1000000100100110 = .insn (.shr 1 2) ∧
    encode (.shr 1 2) = 0b1000000100100110 := by decide
theorem test_word_subn : decode 0b1000000100100111 = .insn (.subn 1 2) ∧
    encode (.subn 1 2) = 0b1000000100100111 := by decide
theorem test_word_shl : decode 0b1000000100101110 = .insn (.shl 1 2) ∧
    encode (.shl 1 2) = 0b1000000100101110 := by decide
theorem test_word_ldINnn : decode 0b1010000100100011 = .insn (.ldINnn 0x123) ∧
    encode (.ldINnn 0x123) = 0b1010000100100011 := by decide
theorem test_word_rnd : decode 0b1100000100001111 = .insn (.rnd 1 0x0F) ∧
    encode (.rnd 1 0x0F) = 0b1100000100001111 := by decide
theorem test_word_drw : decode 0b1101000100100101 = .insn (.drw 1 2 5) ∧
    encode (.drw 1 2 5) = 0b1101000100100101 := by decide
theorem test_word_skp : decode 0b1110001010011110 = .insn (.skp 2) ∧
    encode (.skp 2) = 0b1110001010011110 := by decide
theorem test_word_sknp : decode 0b1110001010100001 = .insn (.sknp 2) ∧
    encode (.sknp 2) = 0b1110001010100001 := by decide
theorem test_word_ldVxDt : decode 0b1111000100000111 = .insn (.ldVxDt 1) ∧
    encode (.ldVxDt 1) = 0b1111000100000111 := by decide
theorem test_word_ldVxK : decode 0b1111000100001010 = .insn (.ldVxK 1) ∧
    encode (.ldVxK 1) = 0b1111000100001010 := by decide
theorem test_word_ldDtVx : decode 0b1111000100010101 = .insn (.ldDtVx 1) ∧
    encode (.ldDtVx 1) = 0b1111000100010101 := by decide
theorem test_word_ldStVx : decode 0b1111000100011000 = .insn (.ldStVx 1) ∧
    encode (.ldStVx 1) = 0b1111000100011000 := by decide
theorem test_word_addIVx : decode 0b1111000100011110 = .insn (.addIVx 1) ∧
    encode (.addIVx 1) = 0b1111000100011110 := by decide
theorem test_word_ldFVx : decode 0b1111000100101001 = .insn (.ldFVx 1) ∧
    encode (.ldFVx 1) = 0b1111000100101001 := by decide
theorem test_word_ldBVx : decode 0b1111101000110011 = .insn (.ldBVx 10) ∧
    encode (.ldBVx 10) = 0b1111101000110011 := by decide
theorem test_word_ldMIVx : decode 0b1111001001010101 = .insn (.ldMIVx 2) ∧
    encode (.ldMIVx 2) = 0b1111001001010101 := by decide
theorem test_word_ldVxMI : decode 0b1111001001100101 = .insn (.ldVxMI 2) ∧
    encode (.ldVxMI 2) = 0b1111001001100101 := by decide

/-- V-UNK1 to V-UNK8: unmapped words of the families 0, 5, 8, 9, E and F. -/
theorem test_word_unmapped :
    [0x0123, 0x0000, 0x00E1, 0x00FF, 0x5121, 0x8008, 0x8009, 0x800F].all
      (fun w => decode w = .unknown w) = true ∧
    [0x9121, 0xE000, 0xE19F, 0xF000, 0xF0FF, 0xF130].all
      (fun w => decode w = .unknown w) = true := by decide

/-- R80: the byte at the lower address is the high one; bytes after the word are given back. -/
theorem test_bytes_big_endian :
    decodeBytes [0xA2, 0xF0, 0x77] = .ok (.ldINnn 0x2F0, [0x77]) ∧
    decodeBytes [0xA2] = .error (.truncated 1) ∧
    decodeBytes [0x01, 0x23] = .error (.unknownOpcode 0x0123) ∧
    decodeTableWord 16 0xA2F0 = some (.ldINnn 0x2F0) ∧
    decodeTableWord 16 0x0000 = none := by decide

/-! ### Single steps (95_test_vectors.md) -/

/-- The state after construction, changed by `f`, with a word where the next step fetches. -/
def start (w : Nat) (f : State → State) : State := (f State.reset).withFetchWord 16 w

/-- What `f` shows of the state one step later. -/
def after {α : Type} (s : State) (f : State → α) : Option α :=
  match step s with
  | .next t => some (f t)
  | .fault _ => none
  | .refused _ => none

/-- Four bytes of memory. -/
def mem4 (t : State) (a : Nat) : List Byte :=
  [t.mem.get a, t.mem.get (a + 1), t.mem.get (a + 2), t.mem.get (a + 3)]

/-- V-DR1. -/
theorem test_cls : after (start 0x00E0 fun s => (s.setFb (s.fb.setPixel 5 6 true)).setReg 15 0x55)
    (fun t => (t.fb.pixel 5 6, t.reg 15, t.pc)) = some (false, 0x55, 0x202) := by decide

/-- V-CF4. -/
theorem test_ret : after (start 0x00EE fun s => (s.setPc 0x400).setStack [0x7, 0x202])
    (fun t => (t.pc, t.stack)) = some (0x202, [0x7]) := by decide

/-- V-CF6 and V-TI8: the tick is kept, PC is not moved. -/
theorem test_ret_empty : after (start 0x00EE fun s => s.setDt 3)
    (fun t => (t.pc, t.dt, t.status, t.result)) =
      some (0x200, 2, .halted (.stackUnderflow 0x200), some (.err (.stackUnderflow 0x200))) := by decide

/-- V-CF1. -/
theorem test_jp : after (start 0x1234 id) (fun t => (t.pc, t.stack, t.result)) =
    some (0x234, [], some .ok) := by decide

/-- V-CF9. -/
theorem test_jpV0 : after (start 0xBFFF fun s => s.setReg 0 0xFF) State.pc = some 0x10FE := by decide

/-- V-CF13. -/
theorem test_call : after (start 0x2202 fun s => s.setPc 0xFFE) (fun t => (t.pc, t.stack)) =
    some (0x202, [0x1000]) := by decide

/-- V-CF7. -/
theorem test_call_full : after (start 0x2400 fun s => s.setStack (List.replicate 16 0x202))
    (fun t => (t.pc, t.stack.length, t.status)) =
      some (0x200, 16, .halted (.stackOverflow 0x200)) := by decide

/-- V-SK15. -/
theorem test_seVxKk : after (start 0x3000 fun s => s.setPc 0xFFC) State.pc = some 0x1000 := by decide

/-- V-SK2. -/
theorem test_seVxKk_not : after (start 0x3012 fun s => s.setReg 0 0x13) State.pc = some 0x202 := by decide

/-- V-SK3. -/
theorem test_sneVxKk : after (start 0x4012 fun s => s.setReg 0 0x13) State.pc = some 0x204 := by decide

/-- V-SK4. -/
theorem test_sneVxKk_not : after (start 0x4012 fun s => s.setReg 0 0x12) State.pc = some 0x202 := by decide

/-- V-SK5. -/
theorem test_seVxVy : after (start 0x5010 fun s => (s.setReg 0 7).setReg 1 7) State.pc =
    some 0x204 := by decide

/-- V-SK6. -/
theorem test_seVxVy_not : after (start 0x5010 fun s => (s.setReg 0 7).setReg 1 8) State.pc =
    some 0x202 := by decide

/-- V-SK8. -/
theorem test_sneVxVy : after (start 0x9010 fun s => (s.setReg 0 7).setReg 1 8) State.pc =
    some 0x204 := by decide

/-- V-SK9. -/
theorem test_sneVxVy_same : after (start 0x9000 id) State.pc = some 0x202 := by decide

/-- V-SK10. -/
theorem test_skp : after (start 0xE09E fun s => (s.setReg 0 5).setKey (some 5)) State.pc =
    some 0x204 := by decide

/-- V-SK14: no masking of V[x]. -/
theorem test_skp_above15 : after (start 0xE09E fun s => (s.setReg 0 0x15).setKey (some 5)) State.pc =
    some 0x202 := by decide

/-- V-SK12. -/
theorem test_sknp_none : after (start 0xE0A1 fun s => s.setReg 0 5) State.pc = some 0x204 := by decide

/-- V-SK13. -/
theorem test_sknp : after (start 0xE0A1 fun s => (s.setReg 0 5).setKey (some 5)) State.pc =
    some 0x202 := by decide

/-- E4. -/
theorem test_ldVxKk : after (start 0x6A3C id) (fun t => (t.reg 10, t.pc, t.result)) =
    some (0x3C, 0x202, some .ok) := by decide

/-- E5. -/
theorem test_addVxKk : after (start 0x7A01 fun s => (s.setReg 10 0xFF).setReg 15 0x55)
    (fun t => (t.reg 10, t.reg 15)) = some (0x00, 0x55) := by decide

/-- V-AL3. -/
theorem test_ldVxVy : after (start 0x8120 fun s => s.setReg 2 0x9C)
    (fun t => (t.reg 1, t.reg 2)) = some (0x9C, 0x9C) := by decide

/-- V-AL4. -/
theorem test_orVxVy :
    after (start 0x8121 fun s => ((s.setReg 1 0xF0).setReg 2 0x0F).setReg 15 0x77)
      (fun t => (t.reg 1, t.reg 15)) = some (0xFF, 0x77) := by decide

/-- V-AL5. -/
theorem test_andVxVy : after (start 0x8122 fun s => (s.setReg 1 0xF0).setReg 2 0x3C)
    (fun t => t.reg 1) = some 0x30 := by decide

/-- V-AL6. -/
theorem test_xorVxVy : after (start 0x8123 fun s => (s.setReg 1 0xF0).setReg 2 0x3C)
    (fun t => t.reg 1) = some 0xCC := by decide

/-- V-AL7: no carry at 255. -/
theorem test_addVxVy : after (start 0x8124 fun s => (s.setReg 1 0x7F).setReg 2 0x80)
    (fun t => (t.reg 1, t.reg 15)) = some (0xFF, 0) := by decide

/-- V-AL9: the carry overwrites the sum. -/
theorem test_addVxVy_flag : after (start 0x8F14 fun s => (s.setReg 15 0xFF).setReg 1 0x01)
    (fun t => t.reg 15) = some 1 := by decide

/-- E7. -/
theorem test_sub : after (start 0x8015 fun s => (s.setReg 0 0x05).setReg 1 0x0A)
    (fun t => (t.reg 0, t.reg 15)) = some (0xFB, 0) := by decide

/-- V-AL10: the comparison is strict. -/
theorem test_sub_equal : after (start 0x8125 fun s => (s.setReg 1 0x40).setReg 2 0x40)
    (fun t => (t.reg 1, t.reg 15)) = some (0, 0) := by decide

/-- V-AL16: V[2] is not used. -/
theorem test_shr : after (start 0x8126 fun s => (s.setReg 1 0x80).setReg 2 0xFF)
    (fun t => (t.reg 1, t.reg 15)) = some (0x40, 0) := by decide

/-- V-AL17. -/
theorem test_shr_flag : after (start 0x8F06 fun s => s.setReg 15 0x81) (fun t => t.reg 15) =
    some 1 := by decide

/-- V-AL13. -/
theorem test_subn : after (start 0x8127 fun s => (s.setReg 1 0x05).setReg 2 0x0A)
    (fun t => (t.reg 1, t.reg 15)) = some (0x05, 1) := by decide

/-- V-AL14. -/
theorem test_subn_wraps : after (start 0x8127 fun s => (s.setReg 1 0x0A).setReg 2 0x05)
    (fun t => (t.reg 1, t.reg 15)) = some (0xFB, 0) := by decide

/-- V-AL18. -/
theorem test_shl : after (start 0x812E fun s => s.setReg 1 0x81) (fun t => (t.reg 1, t.reg 15)) =
    some (0x02, 1) := by decide

/-- V-AL20. -/
theorem test_shl_flag : after (start 0x8FFE fun s => s.setReg 15 0x40) (fun t => t.reg 15) =
    some 0 := by decide

/-- V-IM1. -/
theorem test_ldINnn : after (start 0xA123 id) (fun t => (t.i, t.pc)) = some (0x123, 0x202) := by decide

/-- V-AL21, with the byte that the source draws named in the hypothesis. -/
theorem test_rnd (h : Config.randomByte 0 = 0xAB) :
    ∃ t, exec (.rnd 1 0x0F) State.reset = .next t ∧ t.reg 1 = 0x0B ∧ t.rngDraws = 1 := by
  refine ⟨_, rfl, ?_, rfl⟩
  show (_ : State).reg 1 = _
  simp only [State.randomByte, State.advance_reg, State.setReg_reg_same]
  rw [show State.reset.rngDraws = 0 from rfl, h]
  decide

/-- V-AL22: one byte is still drawn. -/
theorem test_rnd_zero : ∃ t, exec (.rnd 1 0x00) State.reset = .next t ∧ t.reg 1 = 0 ∧
    t.rngDraws = 1 :=
  ⟨_, rfl, by simp, rfl⟩

/-- V-DR8: the origin is the old VF. -/
theorem test_drw_flag :
    after (start 0xDF01 fun s => ((s.setReg 15 8).setI 0x300).setMem [(0x300, 0x80)])
      (fun t => (t.fb.pixel 8 0, t.fb.pixel 0 0, t.reg 15)) = some (true, false, 0) := by decide

/-- E11: glyph 0 at column 63, row 31 wraps on both axes; its rows 0 and 1 at their four columns. -/
theorem test_drw_wraps :
    after (start 0xD015 fun s => ((s.setReg 0 63).setReg 1 31).setI 0x050)
      (fun t => ([t.fb.pixel 63 31, t.fb.pixel 0 31, t.fb.pixel 2 31, t.fb.pixel 3 31],
        [t.fb.pixel 63 0, t.fb.pixel 0 0, t.fb.pixel 2 0, t.fb.pixel 3 0], t.reg 15)) =
      some ([true, true, true, false], [true, false, true, false], 0) := by decide

/-- V-TI1: the value after this step's tick. -/
theorem test_ldVxDt : after (start 0xF107 fun s => s.setDt 10) (fun t => (t.reg 1, t.dt)) =
    some (9, 9) := by decide

/-- V-TI6. -/
theorem test_ldVxK : after (start 0xF10A fun s => s.setKey (some 7))
    (fun t => (t.reg 1, t.pc, t.keyDraws)) = some (7, 0x202, 0) := by decide

/-- V-TI7: with no key it does not wait. -/
theorem test_ldVxK_none : after (start 0xF10A id) (fun t => (t.pc, t.status, t.keyDraws)) =
    some (0x202, .running, 1) := by decide

/-- V-TI4: the tick comes first, then the write. -/
theorem test_ldDtVx : after (start 0xF115 fun s => (s.setReg 1 5).setDt 2) State.dt = some 5 := by decide

/-- V-TI5. -/
theorem test_ldStVx : after (start 0xF118 fun s => s.setReg 1 1) (fun t => (t.st, t.dt)) =
    some (1, 0) := by decide

/-- V-IM2. -/
theorem test_addIVx : after (start 0xF01E fun s => (s.setI 0x0FFF).setReg 0 1)
    (fun t => (t.i, t.reg 15)) = some (0x1000, 0) := by decide

/-- V-IM3. -/
theorem test_addIVx_wraps : after (start 0xF01E fun s => (s.setI 0xFFFF).setReg 0 1) State.i =
    some 0 := by decide

/-- E13: the byte at FONT_BASE + I is the first of glyph A. -/
theorem test_ldFVx : after (start 0xF029 fun s => s.setReg 0 0x0A)
    (fun t => (t.i, t.mem.get (0x050 + t.i.toNat))) = some (50, 0xF0) := by decide

/-- V-IM6. -/
theorem test_ldFVx_above15 : after (start 0xF029 fun s => s.setReg 0 0xFF) State.i =
    some 0x04FB := by decide

/-- E14. -/
theorem test_ldBVx : after (start 0xF033 fun s => (s.setReg 0 123).setI 0x300)
    (fun t => (mem4 t 0x300, t.i)) = some ([1, 2, 3, 0], 0x300) := by decide

/-- V-IM10: nothing is written. -/
theorem test_ldBVx_fault : after (start 0xF033 fun s => (s.setReg 0 123).setI 0xFFE)
    (fun t => (t.mem.get 0xFFE, t.mem.get 0xFFF, t.result)) =
      some (0, 0, some (.err (.memoryFault 0x200 0x1000))) := by decide

/-- V-IM11. -/
theorem test_ldMIVx :
    after (start 0xF255 fun s => (((s.setReg 0 1).setReg 1 2).setReg 2 3).setI 0x300)
      (fun t => (mem4 t 0x300, t.i)) = some ([1, 2, 3, 0], 0x303) := by decide

/-- V-IM14: the last byte of memory is in range. -/
theorem test_ldMIVx_top : after (start 0xF155 fun s => ((s.setReg 0 0xAA).setReg 1 0xBB).setI 0xFFE)
    (fun t => (t.mem.get 0xFFE, t.mem.get 0xFFF, t.i, t.result)) =
      some (0xAA, 0xBB, 0x1000, some .ok) := by decide

/-- V-IM15, three of its registers. -/
theorem test_ldVxMI :
    after (start 0xF265 fun s => (s.setI 0x300).setMem [(0x300, 1), (0x301, 2), (0x302, 3), (0x303, 4)])
      (fun t => ([t.reg 0, t.reg 1, t.reg 2, t.reg 3], t.i)) = some ([1, 2, 3, 0], 0x303) := by decide

/-- V-IM16. -/
theorem test_ldVxMI_fault : after (start 0xF065 fun s => s.setI 0x1000) (fun t => (t.i, t.status)) =
    some (0x1000, .halted (.memoryFault 0x200 0x1000)) := by decide

/-- V-UNK3. -/
theorem test_unmapped_warns : after (start 0x5121 id) (fun t => (t.pc, t.result, t.status)) =
    some (0x202, some (.warn 0x200 0x5121), .running) := by decide

/-- V-CF10. -/
theorem test_fetch_fault : after ((State.reset.setPc 0x10FE).setDt 1) (fun t => (t.pc, t.dt, t.result)) =
    some (0x10FE, 0, some (.err (.memoryFault 0x10FE 0x10FE))) := by decide

/-- V-TI9. -/
theorem test_halted : after ((State.reset.takeFatal (.stackUnderflow 0x200)).setDt 2)
    (fun t => (t.pc, t.dt, t.result)) =
      some (0x200, 2, some (.err (.stackUnderflow 0x200))) := by decide

/-- E3: the font table and the bytes around it. -/
theorem test_font : State.reset.mem.get 0x04F = 0 ∧ mem4 State.reset 0x050 = [0xF0, 0x90, 0x90, 0x90] ∧
    State.reset.mem.get 0x054 = 0xF0 ∧ State.reset.mem.get 0x0A0 = 0 := by decide

/-- E1. -/
theorem test_load : ∃ t, hostLoad [0x12, 0x34, 0x56] State.reset = .next (.ok 3, t) ∧
    mem4 t 0x200 = [0x12, 0x34, 0x56, 0x00] :=
  ⟨_, rfl, by decide⟩

/-- Construction: the state of reset again, while the draws go on. -/
theorem test_construct :
    (fun t : State => (t.pc, t.reg 1, t.status, t.rngDraws, t.keyDraws))
      (hostConstruct { (State.reset.setReg 1 7).setPc 0x300 with rngDraws := 2, keyDraws := 1 }) =
      (0x200, 0, .running, 2, 1) := by decide

/-- R255: 16 is no key. -/
theorem test_setKey_outOfRange : hostSetKey (some 16) State.reset = .refused (.keyOutOfRange 16) := rfl

/-! ### Witnesses: each hypothesis of a statement is met, at the ends of its range -/

/-- A state with `n` entries on the stack. -/
def stacked (n : Nat) : State := State.reset.setStack (List.replicate n 0x202)

/-- A state with `I` at `w`. -/
def indexed (w : Word) : State := State.reset.setI w

/-- A halted state. -/
def halted : State := { State.reset.takeFatal (.stackUnderflow 0x200) with started := true }

/-- Every premise "the word is in the row" (`DecodesRow`, `DecodeFollowsOpcodeMap`): the row's own
pattern, and the pattern with every operand bit set. -/
theorem witness_DecodesRow :
    ∀ r ∈ opcodeTable, r.pat &&& r.mask = r.pat ∧ (r.pat ||| ~~~r.mask) &&& r.mask = r.pat := by decide

theorem witness_CallPushesReturnAddress : (stacked 0).stack.length < 16 ∧ (stacked 15).stack.length < 16 := by
  decide

theorem witness_ReturnPopsIntoPc : (stacked 1).stack = [] ++ [0x202] ∧
    (stacked 16).stack = List.replicate 15 0x202 ++ [0x202] := by decide

theorem witness_ReturnUndoesCall :
    ∃ t, (stacked 15).stack.length < 16 ∧ exec (.call 0xFFF) (stacked 15) = .next t :=
  ⟨_, by decide, rfl⟩

theorem witness_StackErrorsAreReported :
    (stacked 16).stack.length = 16 ∧ (stacked 15).stack.length < 16 ∧ (stacked 0).stack.length = 0 ∧
    0 < (stacked 1).stack.length := by decide

theorem witness_StackErrorsCommitNothing :
    (∃ t, 16 ≤ (stacked 16).stack.length ∧ exec (.call 0x400) (stacked 16) = .next t) ∧
    (∃ t, (stacked 0).stack = [] ∧ exec .ret (stacked 0) = .next t) :=
  ⟨⟨_, by decide, rfl⟩, ⟨_, rfl, rfl⟩⟩

theorem witness_SkipOnRegister :
    ((0x5121 : Word).toNat / 4096 = 5 ∧ (0x5121 : Word).toNat % 16 ≠ 0) ∧
    ((0x912F : Word).toNat / 4096 = 9 ∧ (0x912F : Word).toNat % 16 ≠ 0) := by decide

theorem witness_SkipOnKey :
    (∃ k : KeyIx, ((State.reset.setReg 2 15).setKey (some 15)).key = some k ∧
      k.val = (((State.reset.setReg 2 15).setKey (some 15)).reg 2).toNat) ∧
    (∀ k : KeyIx, ((State.reset.setReg 2 0x1F).setKey (some 15)).key = some k →
      k.val ≠ (((State.reset.setReg 2 0x1F).setKey (some 15)).reg 2).toNat) ∧
    (∀ k : KeyIx, State.reset.key = some k → k.val ≠ (State.reset.reg 2).toNat) :=
  ⟨⟨15, rfl, by decide⟩, by decide, by decide⟩

theorem witness_flag_register_apart : (14 : RegIx) ≠ 15 ∧ (0 : RegIx) ≠ 15 := by decide

theorem witness_BcdStoresThreeDigits :
    (indexed 0xFFD).mem.wf = true ∧ (indexed 0xFFD).effAddr 2 < 4096 := by decide

theorem witness_StoreRegistersAtIndex :
    ((indexed 0xFF0).mem.wf = true ∧ (indexed 0xFF0).effAddr (15 : RegIx).val < 4096) ∧
    (indexed 0xFFF).effAddr (0 : RegIx).val < 4096 := by decide

theorem witness_LoadRegistersFromIndex :
    (indexed 0xFF0).effAddr (15 : RegIx).val < 4096 ∧ (indexed 0xFFF).effAddr (0 : RegIx).val < 4096 := by
  decide

/-- V-DR7, V-IM10, V-IM13, V-IM16, and the largest `I`. -/
theorem witness_OutOfRangeAccessHalts :
    (0 < 15 ∧ 4096 < (indexed 0xFF5).i.toNat + 15) ∧ (0 < 3 ∧ 4096 < (indexed 0xFFE).i.toNat + 3) ∧
    (0 < (1 : RegIx).val + 1 ∧ 4096 < (indexed 0xFFF).i.toNat + ((1 : RegIx).val + 1)) ∧
    (0 < (0 : RegIx).val + 1 ∧ 4096 < (indexed 0x1000).i.toNat + ((0 : RegIx).val + 1)) ∧
    (0 < 1 ∧ 4096 < (indexed 0xFFFF).i.toNat + 1) := by decide

theorem witness_ByteAccessReadsLastWrite :
    4096 ≤ 4096 ∧ 4095 < 4096 ∧ Memory.wf [(0x300, 0x80)] = true ∧ (0x300 : Nat) ≠ 0x301 := by decide

theorem witness_FetchIsBigEndian : 0xFFE + 1 < 4096 ∧ 4096 ≤ 0xFFF + 1 := by decide

/-- Rows up to the last byte of memory, no rows at all, and a lit pixel that is set (V-DR6). -/
theorem witness_DrawTogglesSpritePixels :
    ((indexed 0xFF1).i.toNat + 15 ≤ 4096) ∧ ((0 : Nat) ≤ 15 ∧ (0 : Nat) = 0) ∧
    SpriteLights (fun _ => 0x80) 1 64 32 0 0 ∧
    (State.reset.fb.setPixel 0 0 true).pixel 0 0 = true ∧
    ¬ SpriteLights (fun _ => 0x80) 1 64 32 1 0 := by
  refine ⟨by decide, by decide, ⟨0, 0, by decide, by decide, by decide, by decide, by decide⟩, by decide, ?_⟩
  rintro ⟨r, b, hr, hb, hl, hc, -⟩
  have : b = 1 := by
    have hc' : 1 = (64 % 64 + b) % 64 := hc
    omega
  subst this
  exact absurd (show (0x80 : Byte).getLsbD 6 = true from hl) (by decide)

/-- E10: glyph 0 at the origin on a clear framebuffer, and a sprite of zeros. -/
theorem witness_DrawTwiceRestoresPixels :
    (∃ t, (0 : RegIx) ≠ 15 ∧ 5 ≤ 15 ∧ (indexed 0x050).i.toNat + 5 ≤ 4096 ∧
      exec (.drw 0 1 5) (indexed 0x050) = .next t) ∧
    (∀ c q, (indexed 0x050).fb.pixel c q = false) ∧
    (∃ r b, r < 5 ∧ b < 8 ∧ ((indexed 0x050).mem.get ((indexed 0x050).i.toNat + r)).getLsbD b = true) ∧
    (∀ r, r < 5 → (indexed 0).mem.get ((indexed 0).i.toNat + r) = 0) :=
  ⟨⟨_, by decide, by decide, by decide, rfl⟩, fun c q => Framebuffer.clear_pixel c q,
    ⟨0, 7, by decide, by decide, by decide⟩, by decide⟩

/-- E10: two draws of glyph 0 leave the corner pixel clear and VF = 1. -/
theorem test_drw_twice : ∃ t u, exec (.drw 0 1 5) (indexed 0x050) = .next t ∧
    exec (.drw 0 1 5) t = .next u ∧ t.fb.pixel 0 0 = true ∧ t.reg 15 = 0 ∧
    u.fb.pixel 0 0 = false ∧ u.reg 15 = 1 :=
  ⟨_, _, rfl, rfl, by decide, by decide, by decide, by decide⟩

theorem witness_TimerAccesses :
    (FetchesWord (start 0xFF07 id) 0xFF07 ∧ decode 0xFF07 = .insn (.ldVxDt 15)) ∧
    (FetchesWord (start 0xF015 id) 0xF015 ∧ decode 0xF015 = .insn (.ldDtVx 0)) ∧
    (FetchesWord (start 0xF118 id) 0xF118 ∧ decode 0xF118 = .insn (.ldStVx 1)) :=
  ⟨⟨⟨rfl, by decide, by decide⟩, by decide⟩, ⟨⟨rfl, by decide, by decide⟩, by decide⟩,
    ⟨⟨rfl, by decide, by decide⟩, by decide⟩⟩

theorem witness_KeyReadNeverWaits :
    (State.reset.setKey (some 15)).key = some 15 ∧ State.reset.key = none := ⟨rfl, rfl⟩

/-- A word that is neither Fx15 nor Fx18, a fetch that faults, and a halted state. -/
theorem witness_EveryStepTicksTimers :
    (∃ t, (start 0x6A3C id).status = .running ∧ step (start 0x6A3C id) = .next t) ∧
    (∀ w x, FetchesWord (start 0x6A3C id) w → decode w ≠ .insn (.ldDtVx x)) ∧
    (∀ w x, FetchesWord (start 0x6A3C id) w → decode w ≠ .insn (.ldStVx x)) ∧
    (∀ w x, FetchesWord (State.reset.setPc 0xFFF) w → decode w ≠ .insn (.ldDtVx x)) ∧
    (∃ t, halted.status = .halted (.stackUnderflow 0x200) ∧ step halted = .next t) := by
  have h : FetchesWord (start 0x6A3C id) 0x6A3C := ⟨rfl, by decide, by decide⟩
  refine ⟨⟨_, rfl, rfl⟩, ?_, ?_, ?_, ⟨_, rfl, rfl⟩⟩
  · intro w x hw
    rw [← FetchesWord.unique h hw, show decode 0x6A3C = .insn (.ldVxKk 10 0x3C) by decide]
    exact fun e => by cases e
  · intro w x hw
    rw [← FetchesWord.unique h hw, show decode 0x6A3C = .insn (.ldVxKk 10 0x3C) by decide]
    exact fun e => by cases e
  · intro w x hw
    exact absurd hw.2.1 (by decide)

theorem witness_SoundTimerIsNeverRead : ∃ t, exec (.ldStVx 1) (State.reset.setSt 9) = .next t := ⟨_, rfl⟩

theorem witness_OnlyKeyInstructionsReadKey :
    (∀ x, Instr.ldVxDt 1 ≠ .skp x ∧ Instr.ldVxDt 1 ≠ .sknp x ∧ Instr.ldVxDt 1 ≠ .ldVxK x) ∧
    ∃ t, exec (.ldVxDt 1) State.reset = .next t :=
  ⟨fun _ => ⟨by simp, by simp, by simp⟩, ⟨_, rfl⟩⟩

theorem witness_RegisterWriters :
    (∃ t, exec (.ldVxKk 10 0x3C) State.reset = .next t ∧ t.reg 10 ≠ State.reset.reg 10) ∧
    (∃ t, exec (.shr 0 0) (State.reset.setReg 0 1) = .next t ∧
      t.reg 15 ≠ (State.reset.setReg 0 1).reg 15) :=
  ⟨⟨_, rfl, by decide⟩, ⟨_, rfl, by decide⟩⟩

theorem witness_IndexWriters : ∃ t, exec (.ldINnn 0x123) State.reset = .next t ∧ t.i ≠ State.reset.i :=
  ⟨_, rfl, by decide⟩

theorem witness_MemoryWriters :
    ∃ t, exec (.ldMIVx 0) ((indexed 0x300).setReg 0 1) = .next t ∧
      t.mem ≠ ((indexed 0x300).setReg 0 1).mem :=
  ⟨_, rfl, by decide⟩

theorem witness_StackWriters :
    (∃ t, exec (.call 0x400) State.reset = .next t ∧ t.stack ≠ State.reset.stack) ∧
    (∃ t, exec .ret (stacked 1) = .next t ∧ t.stack ≠ (stacked 1).stack) :=
  ⟨⟨_, rfl, by decide⟩, ⟨_, rfl, by decide⟩⟩

theorem witness_FramebufferPersists :
    (∃ t, exec (.drw 0 0 1) (indexed 0x050) = .next t ∧ t.fb ≠ (indexed 0x050).fb) ∧
    (∃ t, step (State.reset.setPc 0xFFF) = .next t) ∧
    (∀ w, FetchesWord (State.reset.setPc 0xFFF) w →
      decode w ≠ .insn .cls ∧ ∀ x y n, decode w ≠ .insn (.drw x y n)) := by
  refine ⟨⟨_, rfl, ?_⟩, ⟨_, rfl⟩, fun w hw => absurd hw.2.1 (by decide)⟩
  intro h
  have : Framebuffer.pixel _ 0 0 = Framebuffer.pixel _ 0 0 := congrArg (fun f => Framebuffer.pixel f 0 0) h
  exact absurd this (by decide)

theorem witness_OnlyHostWritesKey : (∃ t, step State.reset = .next t) ∧ 15 < 16 := ⟨⟨_, rfl⟩, by decide⟩

theorem witness_FreeDrawsAreCounted :
    (∃ t, exec (.rnd 1 0) State.reset = .next t) ∧
    (∃ t, exec (.ldVxK 1) State.reset = .next t ∧ t.keyDraws ≠ State.reset.keyDraws) ∧
    (∀ x kk, Instr.ldVxK 1 ≠ .rnd x kk) :=
  ⟨⟨_, rfl⟩, ⟨_, rfl, by decide⟩, fun _ _ => by simp⟩

theorem witness_PcAfterInstruction :
    (∃ t, State.reset.status = .running ∧ exec .ret State.reset = .next t ∧ t.status ≠ .running) ∧
    (∃ t, exec (.seVxKk 0 0) State.reset = .next t ∧ t.status = .running ∧ t.pc ≠ State.reset.pc + 2) :=
  ⟨⟨_, rfl, rfl, by decide⟩, ⟨_, rfl, rfl, by decide⟩⟩

/-- At the reset pc, and at the last address a fetch succeeds at. -/
theorem witness_StepRunsDecodedInstruction :
    (FetchesWord (start 0x6A3C id) 0x6A3C ∧ decode 0x6A3C = .insn (.ldVxKk 10 0x3C)) ∧
    (FetchesWord (start 0x2202 fun s => s.setPc 0xFFE) 0x2202 ∧ decode 0x2202 = .insn (.call 0x202)) :=
  ⟨⟨⟨rfl, by decide, by decide⟩, by decide⟩, ⟨⟨rfl, by decide, by decide⟩, by decide⟩⟩

theorem witness_UnknownWordIsNoOp :
    FetchesWord (start 0x8008 id) 0x8008 ∧ decode 0x8008 = .unknown 0x8008 :=
  ⟨⟨rfl, by decide, by decide⟩, by decide⟩

theorem witness_FetchOutOfRangeHalts :
    (State.reset.setPc 0xFFF).status = .running ∧ 4096 ≤ (State.reset.setPc 0xFFF).pc.toNat + 1 := by decide

theorem witness_HaltedMachineIsStuck : halted.status = .halted (.stackUnderflow 0x200) := rfl

theorem witness_StepResultMatchesStatus :
    (∃ t, step State.reset = .next t) ∧ (∃ t, step halted = .next t) ∧
    (∃ t, step (start 0x6A3C id) = .next t) :=
  ⟨⟨_, rfl⟩, ⟨_, rfl⟩, ⟨_, rfl⟩⟩

theorem witness_LoadCopiesImage :
    (State.reset.mem.wf = true ∧ State.reset.started = false) ∧
    (List.replicate 3584 (0x12 : Byte)).length ≤ 3584 ∧
    3584 < (List.replicate 3585 (0x12 : Byte)).length ∧ halted.started = true :=
  ⟨⟨rfl, rfl⟩, by rw [List.length_replicate], by rw [List.length_replicate]; omega, rfl⟩

theorem witness_IdleEndIsStable : IdleEnd (start 0x1200 id) :=
  ⟨0x1200, ⟨rfl, by decide, by decide⟩, by decide⟩

theorem witness_UnloadedMachineRunsOff : 1792 ≤ 1792 ∧ 0 < 1792 := by decide

theorem inv_reset : Inv State.reset :=
  ⟨rfl, by decide, fun _ h => (nomatch h), fun _ h => (nomatch h)⟩

theorem inv_halted : Inv halted :=
  ⟨rfl, by decide, fun _ _ => rfl, fun _ h => (by cases h; rfl)⟩

theorem witness_StepKeepsInv :
    (∃ t, Inv State.reset ∧ step State.reset = .next t) ∧ (∃ t, Inv halted ∧ step halted = .next t) :=
  ⟨⟨_, inv_reset, rfl⟩, ⟨_, inv_halted, rfl⟩⟩

theorem witness_HostCallKeepsInv :
    (∃ t, Inv State.reset ∧ HostCall.run (.load [0x12, 0x34]) State.reset = .next t) ∧
    (∃ t, Inv halted ∧ HostCall.run (.setKey (some 15)) halted = .next t) ∧
    (∃ t, Inv halted ∧ HostCall.run .construct halted = .next t) :=
  ⟨⟨_, inv_reset, by rw [HostCall.run, hostLoad_ok rfl (by decide)]⟩,
    ⟨_, inv_halted, hostSetKey_key halted (k := 15) (by decide)⟩, ⟨_, inv_halted, rfl⟩⟩

/-- The largest PC and return address of the bound. -/
theorem witness_StepKeepsPcBound :
    ∃ t, PcBound ((State.reset.setPc 0x10FE).setStack [0x1000]) ∧
      step ((State.reset.setPc 0x10FE).setStack [0x1000]) = .next t :=
  ⟨_, ⟨by decide, fun w h => (by rw [List.mem_singleton.mp h]; decide)⟩, rfl⟩

theorem witness_DecodeOfEncode :
    Instr.WellFormed (.jp 0xFFF) ∧ Instr.WellFormed (.drw 15 15 15) ∧ Instr.WellFormed (.drw 0 0 0) := by decide

theorem witness_EncodeOfDecode : decode 0xD01F = .insn (.drw 0 1 15) := by decide

theorem witness_DecodeFollowsOpcodeMap : ∀ r ∈ opcodeTable, (0x8008 : Word) &&& r.mask ≠ r.pat := by decide

/-- The step of the host's question: the word stored at PC is fetched and run. -/
theorem test_withFetchWord : after (State.reset.withFetchWord 16 0xA2F0) (fun t => (t.i, t.pc)) =
    some (0x2F0, 0x202) := by decide

end Sys2Proof.Tests
end

section
/-! PROOFS. Jumps (40_control_flow.md R112, R113): the frame of a write to PC, the target of Bnnn as a
number, and the statements about 1nnn and Bnnn. -/

namespace Sys2Proof.Machine

/-- Moving the program counter changes nothing else. -/
theorem State.setPc_changesOnly (s : State) (w : Word) : ChangesOnly {.pc} s (s.setPc w) := by
  intro p hp
  cases p with
  | pc => exact absurd rfl hp
  | _ => rfl

/-- The target of Bnnn is reduced mod 65536, the width of PC, and not to 12 bits. -/
theorem State.jumpOffset_toNat (s : State) (nnn : Word) :
    (s.jumpOffset nnn).toNat = (nnn.toNat + (s.reg 0).toNat) % 65536 := by
  have hreg : ((s.reg 0).setWidth 16).toNat = (s.reg 0).toNat :=
    BitVec.toNat_setWidth_of_le (by decide)
  rw [State.jumpOffset, BitVec.toNat_add, hreg]

/-- Settles O1: by the meaning of 1nnn and the frame of a write to PC. -/
theorem jumpSetsPcToNnn : Obligations.JumpSetsPcToNnn :=
  ⟨decodesRow_jp, fun nnn s =>
    ⟨s.setPc nnn, exec_jp nnn s, s.setPc_pc nnn, s.setPc_changesOnly nnn⟩⟩

/-- Settles O2: by the meaning of Bnnn, its target as a number and the frame of a write to PC. -/
theorem jumpOffsetAddsV0 : Obligations.JumpOffsetAddsV0 :=
  ⟨decodesRow_jpV0, fun nnn s =>
    ⟨s.setPc (s.jumpOffset nnn), exec_jpV0 nnn s, s.jumpOffset_toNat nnn,
      s.setPc_changesOnly (s.jumpOffset nnn)⟩⟩

end Sys2Proof.Machine
end

section
/-! PROOFS. Conditional skips (41_conditional_skip.md R131, R132): the frame of a skip, its target for
a decided proposition, and the statement about 3xkk and 4xkk. -/

namespace Sys2Proof.Machine

/-- A skip changes nothing but the program counter, whichever way its condition falls (R130). -/
theorem State.skipIf_changesOnly (s : State) (c : Bool) : ChangesOnly {.pc} s (s.skipIf c) := by
  cases c with
  | true => exact s.setPc_changesOnly (s.pc + 4)
  | false => exact s.setPc_changesOnly (s.pc + 2)

theorem State.skipIf_decide_pc (s : State) (p : Prop) [Decidable p] :
    (s.skipIf (decide p)).pc = if p then s.pc + 4 else s.pc + 2 := by
  simp only [State.skipIf_pc, decide_eq_true_eq]

theorem State.skipIf_decide_not_pc (s : State) (p : Prop) [Decidable p] :
    (s.skipIf (decide ¬p)).pc = if p then s.pc + 2 else s.pc + 4 :=
  (s.skipIf_decide_pc (¬p)).trans (ite_not p _ _)

/-- Settles O8: by the meanings of 3xkk and 4xkk, the target of a skip and its frame. -/
theorem skipOnImmediate : Obligations.SkipOnImmediate :=
  ⟨decodesRow_seVxKk, decodesRow_sneVxKk, fun x kk s =>
    ⟨⟨_, exec_seVxKk x kk s, s.skipIf_decide_pc (s.reg x = kk), s.skipIf_changesOnly _⟩,
      ⟨_, exec_sneVxKk x kk s, s.skipIf_decide_not_pc (s.reg x = kk), s.skipIf_changesOnly _⟩⟩⟩

end Sys2Proof.Machine
end

section
/-! PROOFS. Loads, the immediate add and the bitwise operations (42_register_alu.md R151 to R156): what
an instruction with one register result leaves in that register, in PC and in every other part, and the
statements about 6xkk, 7xkk and 8xy0 to 8xy3. -/

namespace Sys2Proof.Machine

theorem State.setReg_advance_reg (s : State) (x : RegIx) (b : Byte) :
    (s.setReg x b).advance.reg x = b := by
  rw [State.advance_reg, State.setReg_reg_same]

theorem State.setReg_advance_pc (s : State) (x : RegIx) (b : Byte) :
    (s.setReg x b).advance.pc = s.pc + 2 := by
  rw [State.advance_pc, State.setReg_pc]

/-- A register result and the normal advance change that register and PC only: VF among the others is
kept unless it is the destination (R150). -/
theorem State.setReg_advance_changesOnly (s : State) (x : RegIx) (b : Byte) :
    ChangesOnly {.reg x, .pc} s (s.setReg x b).advance := by
  intro p hp
  cases p with
  | reg r =>
    have hrx : r ≠ x := fun h => hp (.inl (congrArg Part.reg h))
    exact s.setReg_reg_other b hrx
  | pc => exact absurd (.inr rfl) hp
  | _ => rfl

/-- Settles O11: by the meanings of 6xkk and 7xkk and the rules of a register result. -/
theorem immediateLoadAndAdd : Obligations.ImmediateLoadAndAdd :=
  ⟨decodesRow_ldVxKk, decodesRow_addVxKk, fun x kk s =>
    ⟨⟨_, exec_ldVxKk x kk s, s.setReg_advance_reg x kk, s.setReg_advance_pc x _,
        s.setReg_advance_changesOnly x _⟩,
      ⟨_, exec_addVxKk x kk s, by rw [State.setReg_advance_reg, BitVec.toNat_add],
        s.setReg_advance_pc x _, s.setReg_advance_changesOnly x _⟩⟩⟩

/-- Settles O12: by the meanings of 8xy0 to 8xy3, the bits of OR, AND and XOR, and the rules of a
register result. -/
theorem copyAndBitwise : Obligations.CopyAndBitwise :=
  ⟨decodesRow_ldVxVy, decodesRow_orVxVy, decodesRow_andVxVy, decodesRow_xorVxVy, fun x y s =>
    ⟨⟨_, exec_ldVxVy x y s, s.setReg_advance_reg x _, s.setReg_advance_pc x _,
        s.setReg_advance_changesOnly x _⟩,
      ⟨_, exec_orVxVy x y s, fun _ => by rw [State.setReg_advance_reg, BitVec.getLsbD_or],
        s.setReg_advance_pc x _, s.setReg_advance_changesOnly x _⟩,
      ⟨_, exec_andVxVy x y s, fun _ => by rw [State.setReg_advance_reg, BitVec.getLsbD_and],
        s.setReg_advance_pc x _, s.setReg_advance_changesOnly x _⟩,
      ⟨_, exec_xorVxVy x y s, fun _ => by rw [State.setReg_advance_reg, BitVec.getLsbD_xor],
        s.setReg_advance_pc x _, s.setReg_advance_changesOnly x _⟩⟩⟩

end Sys2Proof.Machine
end

section
/-! PROOFS. The index register (43_index_memory.md R181): the frame of a write to I with the normal
advance, and the statement about Annn. -/

namespace Sys2Proof.Machine

/-- A new index and the normal advance change I and PC only: no flag is written (R43). -/
theorem State.setI_advance_changesOnly (s : State) (w : Word) :
    ChangesOnly {.i, .pc} s (s.setI w).advance := by
  intro p hp
  cases p with
  | i => exact absurd (.inl rfl) hp
  | pc => exact absurd (.inr rfl) hp
  | _ => rfl

/-- Settles O17: by the meaning of Annn, the reads after a write to I with the normal advance, and its
frame. -/
theorem setIndexRegister : Obligations.SetIndexRegister :=
  ⟨decodesRow_ldINnn, fun nnn s =>
    ⟨(s.setI nnn).advance, exec_ldINnn nnn s,
      by rw [State.advance_i, State.setI_i], by rw [State.advance_pc, State.setI_pc],
      s.setI_advance_changesOnly nnn⟩⟩

end Sys2Proof.Machine
end

section
/-! PROOFS. The framebuffer (44_display.md R200, R202): the frame of a clear, the statement about 00E0,
and that no other instruction but Dxyn, and so no other step, writes a pixel. -/

namespace Sys2Proof.Machine

/-- A new framebuffer and the normal advance change the pixels and PC only: no flag is written (R200). -/
theorem State.setFb_advance_changesOnly (s : State) (fb : Framebuffer) :
    ChangesOnly ({.pc} ∪ Part.pixels) s (s.setFb fb).advance := by
  intro p hp
  cases p with
  | pc => exact absurd (.inl rfl) hp
  | pixel c q => exact absurd (.inr ⟨c, q, rfl⟩) hp
  | _ => rfl

/-- Settles O25: by the meaning of 00E0, the pixels of a cleared framebuffer and the frame of a
framebuffer write. -/
theorem clearScreenClearsAll : Obligations.ClearScreenClearsAll :=
  ⟨decode_cls, fun s =>
    ⟨(s.setFb Framebuffer.clear).advance, exec_cls s, Framebuffer.clear_pixel,
      by rw [State.advance_pc, State.setFb_pc], s.setFb_advance_changesOnly Framebuffer.clear⟩⟩

/-- The instruction is one of the two that write the framebuffer (R202). -/
def Instr.WritesFramebuffer (i : Instr) : Prop := i = .cls ∨ ∃ x y n, i = .drw x y n

/-- An instruction that completes keeps the framebuffer, unless it is 00E0 or Dxyn. -/
theorem Completes.fb_eq {i : Instr} {s t : State} (hi : ¬ Instr.WritesFramebuffer i)
    (h : Completes i s t) : t.fb = s.fb := by
  cases i with
  | cls => exact absurd (.inl rfl) hi
  | drw x y n => exact absurd (.inr ⟨x, y, n, rfl⟩) hi
  | seVxKk | sneVxKk | seVxVy | sneVxVy | skp | sknp =>
    obtain rfl : t = _ := h
    exact s.skipIf_fb _
  | ldVxK =>
    obtain rfl : t = _ := h
    exact s.drewKey_fb
  | call =>
    obtain ⟨_, rfl⟩ := h
    rfl
  | ret | ldBVx | ldMIVx =>
    obtain ⟨_, _, _, rfl⟩ := h
    rfl
  | _ =>
    obtain rfl : t = _ := h
    rfl

/-- An instruction keeps the framebuffer, raising or not, unless it is 00E0 or Dxyn. -/
theorem exec_fb_eq {i : Instr} {s t : State} (hi : ¬ Instr.WritesFramebuffer i)
    (h : exec i s = .next t) : t.fb = s.fb := by
  rcases exec_next h with hc | ⟨e, _, rfl⟩
  · exact hc.fb_eq hi
  · exact s.takeFatal_fb e

/-- A step keeps the framebuffer unless it runs 00E0 or Dxyn: a halted step, a failed fetch, another
instruction and an unmapped word leave it. -/
theorem step_fb_eq {s t : State} (h : step s = .next t)
    (hw : ∀ w i, FetchesWord s w → decode w = .insn i → ¬ Instr.WritesFramebuffer i) :
    t.fb = s.fb := by
  rcases step_cases s with ⟨e, _, hs⟩ | ⟨_, _, hs⟩ | ⟨w, i, hf, hd, hs⟩ | ⟨w, _, _, hs⟩ <;>
    rw [hs] at h
  · cases h
    exact s.haltedStep_fb e
  · cases h
    exact s.beginStep.takeFatal_fb _
  · exact (exec_fb_eq (hw w i hf hd) h).trans s.beginStep_fb
  · cases h
    exact s.beginStep.warnUnknown_fb w

/-- Settles O37: by what an instruction and a step leave in the framebuffer; the host reads its pixels
from there. -/
theorem framebufferPersists : Obligations.FramebufferPersists := by
  refine ⟨fun i s t h hne => ?_, fun s t h hw c q => ?_⟩
  · exact Classical.not_not.mp fun hi => hne (exec_fb_eq hi h)
  · have hkeep : t.fb = s.fb := step_fb_eq h fun w i hf hd hi => by
      obtain ⟨hcls, hdrw⟩ := hw w hf
      rcases hi with rfl | ⟨x, y, n, rfl⟩
      · exact hcls hd
      · exact hdrw x y n hd
    exact congrArg (fun fb => fb.pixel c q) hkeep

end Sys2Proof.Machine
end

section
/-! PROOFS. Timer accesses (45_timer_input.md R221, R223, R224): a step that fetches a mapped word is its
instruction run after the tick, the frames of the two timer writes, and the statement about Fx07, Fx15
and Fx18. -/

namespace Sys2Proof.Machine

/-- A step that fetches a mapped word runs its instruction from the state after the tick (R88). -/
theorem FetchesWord.step_eq {s : State} {w : Word} {i : Instr} (hf : FetchesWord s w)
    (hd : decode w = .insn i) : step s = exec i s.beginStep := by
  have ⟨hrun, hpc, _⟩ := hf
  have hfetch : s.beginStep.fetch = .ok w := by
    rw [State.fetch_ok (s := s.beginStep) hpc, State.beginStep_mem, State.beginStep_pc, ← hf.word]
  simp only [step_running hrun, runCycle, hfetch, hd]

/-- A new delay timer and the normal advance change DT and PC only. -/
theorem State.setDt_advance_changesOnly (s : State) (b : Byte) :
    ChangesOnly {.dt, .pc} s (s.setDt b).advance := by
  intro p hp
  cases p with
  | dt => exact absurd (.inl rfl) hp
  | pc => exact absurd (.inr rfl) hp
  | _ => rfl

/-- A new sound timer and the normal advance change ST and PC only. -/
theorem State.setSt_advance_changesOnly (s : State) (b : Byte) :
    ChangesOnly {.st, .pc} s (s.setSt b).advance := by
  intro p hp
  cases p with
  | st => exact absurd (.inl rfl) hp
  | pc => exact absurd (.inr rfl) hp
  | _ => rfl

/-- A step of Fx07 leaves the ticked DT in the register and in the timer. -/
theorem step_ldVxDt {s : State} {w : Word} {x : RegIx} (hf : FetchesWord s w)
    (hd : decode w = .insn (.ldVxDt x)) :
    ∃ t, step s = .next t ∧ t.reg x = timerTick s.dt ∧ t.dt = timerTick s.dt :=
  ⟨_, (hf.step_eq hd).trans (exec_ldVxDt x _), State.setReg_advance_reg _ x _, by
    rw [State.advance_dt, State.setReg_dt, State.beginStep_dt]⟩

/-- A step of Fx15 leaves the register in DT: the tick comes before the write. -/
theorem step_ldDtVx {s : State} {w : Word} {x : RegIx} (hf : FetchesWord s w)
    (hd : decode w = .insn (.ldDtVx x)) : ∃ t, step s = .next t ∧ t.dt = s.reg x :=
  ⟨_, (hf.step_eq hd).trans (exec_ldDtVx x _), by
    rw [State.advance_dt, State.setDt_dt, State.beginStep_reg]⟩

/-- A step of Fx18 leaves the register in ST: the tick comes before the write. -/
theorem step_ldStVx {s : State} {w : Word} {x : RegIx} (hf : FetchesWord s w)
    (hd : decode w = .insn (.ldStVx x)) : ∃ t, step s = .next t ∧ t.st = s.reg x :=
  ⟨_, (hf.step_eq hd).trans (exec_ldStVx x _), by
    rw [State.advance_st, State.setSt_st, State.beginStep_reg]⟩

/-- Settles O28: by the meanings of Fx07, Fx15 and Fx18 with their frames, and by what a step of each
leaves after the tick. -/
theorem timerAccesses : Obligations.TimerAccesses := by
  refine ⟨decodesRow_ldVxDt, decodesRow_ldDtVx, decodesRow_ldStVx, fun x s => ⟨?_, ?_, ?_⟩,
    fun s w x hf => ⟨fun hd => ?_, step_ldDtVx hf, step_ldStVx hf⟩⟩
  · exact ⟨_, exec_ldVxDt x s, s.setReg_advance_reg x _, s.setReg_advance_pc x _,
      s.setReg_advance_changesOnly x _⟩
  · exact ⟨_, exec_ldDtVx x s, by rw [State.advance_dt, State.setDt_dt],
      by rw [State.advance_pc, State.setDt_pc], s.setDt_advance_changesOnly _⟩
  · exact ⟨_, exec_ldStVx x s, by rw [State.advance_st, State.setSt_st],
      by rw [State.advance_pc, State.setSt_pc], s.setSt_advance_changesOnly _⟩
  · obtain ⟨t, hstep, hreg, hdt⟩ := step_ldVxDt hf hd
    exact ⟨t, hstep, by rw [hreg, timerTick_toNat], by rw [hdt, timerTick_toNat]⟩

end Sys2Proof.Machine
end

section
/-! PROOFS. The decoder against the opcode map (30_encoding.md R83, R84, R90): what decodes lies in a
row of the map, every row decodes to its instruction, decode and encode undo each other, and the rows
are disjoint. -/

namespace Sys2Proof

open Machine (DecodesRow)
open Laws.EncodeInRow

/-- The word lies in some row of the opcode map. -/
def InSomeRow (w : Word) : Prop := ∃ r ∈ opcodeTable, w &&& r.mask = r.pat

/-- A row is found by its match value and mask alone, which a search of the map decides. -/
theorem inSomeRow_of_match {w pat mask : Word} (hw : w &&& mask = pat)
    (hrow : (pat, mask) ∈ opcodeTable.map fun r => (r.pat, r.mask)) : InSomeRow w := by
  obtain ⟨r, hr, he⟩ := List.mem_map.mp hrow
  obtain ⟨rfl, rfl⟩ := Prod.mk.inj he
  exact ⟨r, hr, hw⟩

/-! ### What decodes is in a row -/

/-- The two words of family 0 are matched in all their digits. -/
theorem and_FFFF_eq (w : Word) : w &&& 0xFFFF = w := BitVec.and_allOnes

theorem inSomeRow_FFFF {w : Word} {n : Nat} (hw : w.toNat = n)
    (hrow : (BitVec.ofNat 16 n, 0xFFFF) ∈ opcodeTable.map fun r => (r.pat, r.mask)) :
    InSomeRow w := by
  subst hw
  rw [BitVec.ofNat_toNat, BitVec.setWidth_eq] at hrow
  exact inSomeRow_of_match (and_FFFF_eq w) hrow

theorem inSomeRow_F000 {w : Word} {f : Nat} (hf : fieldFamily w = f)
    (hrow : (BitVec.ofNat 16 (f * 4096), 0xF000) ∈ opcodeTable.map fun r => (r.pat, r.mask)) :
    InSomeRow w := by
  have hw := w.isLt
  rw [fieldFamily_eq] at hf
  refine inSomeRow_of_match (in_row_F000 ?_) hrow
  rw [BitVec.toNat_ofNat]
  omega

theorem inSomeRow_F00F {w : Word} {f n : Nat} (hf : fieldFamily w = f) (hn : fieldN w = n)
    (hrow : (BitVec.ofNat 16 (f * 4096 + n), 0xF00F) ∈ opcodeTable.map fun r => (r.pat, r.mask)) :
    InSomeRow w := by
  have hw := w.isLt
  rw [fieldFamily_eq] at hf
  rw [fieldN_eq] at hn
  refine inSomeRow_of_match (in_row_F00F ?_) hrow
  rw [BitVec.toNat_ofNat]
  omega

theorem inSomeRow_F0FF {w : Word} {f low : Nat} (hf : fieldFamily w = f) (hl : fieldLow w = low)
    (hrow : (BitVec.ofNat 16 (f * 4096 + low), 0xF0FF) ∈ opcodeTable.map fun r => (r.pat, r.mask)) :
    InSomeRow w := by
  have hw := w.isLt
  rw [fieldFamily_eq] at hf
  rw [fieldLow_eq] at hl
  refine inSomeRow_of_match (in_row_F0FF ?_) hrow
  rw [BitVec.toNat_ofNat]
  omega

theorem decodeFamily0_inRow {w : Word} {i : Instr} (h : decodeFamily0 w = .insn i) :
    InSomeRow w := by
  unfold decodeFamily0 at h
  split at h
  next hw => exact inSomeRow_FFFF hw (by decide)
  next hw => exact inSomeRow_FFFF hw (by decide)
  next => cases h

theorem decodeFamily5_inRow {w : Word} {i : Instr} (hf : fieldFamily w = 0x5)
    (h : decodeFamily5 w = .insn i) : InSomeRow w := by
  unfold decodeFamily5 at h
  split at h
  next hn => exact inSomeRow_F00F hf hn (by decide)
  next => cases h

theorem decodeFamily8_inRow {w : Word} {i : Instr} (hf : fieldFamily w = 0x8)
    (h : decodeFamily8 w = .insn i) : InSomeRow w := by
  unfold decodeFamily8 at h
  split at h
  next hn => exact inSomeRow_F00F hf hn (by decide)
  next hn => exact inSomeRow_F00F hf hn (by decide)
  next hn => exact inSomeRow_F00F hf hn (by decide)
  next hn => exact inSomeRow_F00F hf hn (by decide)
  next hn => exact inSomeRow_F00F hf hn (by decide)
  next hn => exact inSomeRow_F00F hf hn (by decide)
  next hn => exact inSomeRow_F00F hf hn (by decide)
  next hn => exact inSomeRow_F00F hf hn (by decide)
  next hn => exact inSomeRow_F00F hf hn (by decide)
  next => cases h

theorem decodeFamily9_inRow {w : Word} {i : Instr} (hf : fieldFamily w = 0x9)
    (h : decodeFamily9 w = .insn i) : InSomeRow w := by
  unfold decodeFamily9 at h
  split at h
  next hn => exact inSomeRow_F00F hf hn (by decide)
  next => cases h

theorem decodeFamilyE_inRow {w : Word} {i : Instr} (hf : fieldFamily w = 0xE)
    (h : decodeFamilyE w = .insn i) : InSomeRow w := by
  unfold decodeFamilyE at h
  split at h
  next hl => exact inSomeRow_F0FF hf hl (by decide)
  next hl => exact inSomeRow_F0FF hf hl (by decide)
  next => cases h

theorem decodeFamilyF_inRow {w : Word} {i : Instr} (hf : fieldFamily w = 0xF)
    (h : decodeFamilyF w = .insn i) : InSomeRow w := by
  unfold decodeFamilyF at h
  split at h
  next hl => exact inSomeRow_F0FF hf hl (by decide)
  next hl => exact inSomeRow_F0FF hf hl (by decide)
  next hl => exact inSomeRow_F0FF hf hl (by decide)
  next hl => exact inSomeRow_F0FF hf hl (by decide)
  next hl => exact inSomeRow_F0FF hf hl (by decide)
  next hl => exact inSomeRow_F0FF hf hl (by decide)
  next hl => exact inSomeRow_F0FF hf hl (by decide)
  next hl => exact inSomeRow_F0FF hf hl (by decide)
  next hl => exact inSomeRow_F0FF hf hl (by decide)
  next => cases h

/-- Whatever decodes to an instruction is in a row of the map. -/
theorem inSomeRow_of_decode {w : Word} {i : Instr} (h : decode w = .insn i) : InSomeRow w := by
  unfold decode at h
  split at h
  next => exact decodeFamily0_inRow h
  next hf => exact inSomeRow_F000 hf (by decide)
  next hf => exact inSomeRow_F000 hf (by decide)
  next hf => exact inSomeRow_F000 hf (by decide)
  next hf => exact inSomeRow_F000 hf (by decide)
  next hf => exact decodeFamily5_inRow hf h
  next hf => exact inSomeRow_F000 hf (by decide)
  next hf => exact inSomeRow_F000 hf (by decide)
  next hf => exact decodeFamily8_inRow hf h
  next hf => exact decodeFamily9_inRow hf h
  next hf => exact inSomeRow_F000 hf (by decide)
  next hf => exact inSomeRow_F000 hf (by decide)
  next hf => exact inSomeRow_F000 hf (by decide)
  next hf => exact inSomeRow_F000 hf (by decide)
  next hf => exact decodeFamilyE_inRow hf h
  next hf => exact decodeFamilyF_inRow hf h
  next => cases h

/-- A word in no row is unmapped. -/
theorem decode_unknown_of_not_inRow {w : Word} (h : ¬ InSomeRow w) : decode w = .unknown w := by
  cases hd : decode w with
  | insn i => exact absurd (inSomeRow_of_decode hd) h
  | unknown w' => rw [decode_unknown hd]

/-! ### Every row decodes to its instruction, which encodes back -/

theorem decodesRow_of_word {pat : Word} {i : Instr} (h : decode pat = .insn i) :
    DecodesRow 0xFFFF pat (fun _ => i) := by
  intro w hw
  rw [← h, ← hw, and_FFFF_eq w]

/-- Each row of the map decodes to its instruction with the fields of the word. -/
theorem opcodeTable_decodes : ∀ r ∈ opcodeTable, DecodesRow r.mask r.pat r.build := by
  simp only [opcodeTable, opcodeRows1To20, opcodeRows21To34, List.forall_mem_append,
    List.forall_mem_cons]
  exact ⟨⟨⟨decodesRow_of_word decode_cls, decodesRow_of_word decode_ret, decodesRow_jp,
        decodesRow_jpV0, decodesRow_call, decodesRow_seVxKk, decodesRow_sneVxKk, decodesRow_seVxVy,
        decodesRow_sneVxVy, decodesRow_ldVxKk, List.forall_mem_nil _⟩,
      decodesRow_addVxKk, decodesRow_ldVxVy, decodesRow_orVxVy, decodesRow_andVxVy,
      decodesRow_xorVxVy, decodesRow_addVxVy, decodesRow_sub, decodesRow_shr, decodesRow_subn,
      decodesRow_shl, List.forall_mem_nil _⟩,
    ⟨decodesRow_ldINnn, decodesRow_rnd, decodesRow_drw, decodesRow_skp, decodesRow_sknp,
      decodesRow_ldVxDt, decodesRow_ldVxK, List.forall_mem_nil _⟩,
    decodesRow_ldDtVx, decodesRow_ldStVx, decodesRow_addIVx, decodesRow_ldFVx, decodesRow_ldBVx,
    decodesRow_ldMIVx, decodesRow_ldVxMI, List.forall_mem_nil _⟩

/-- The instruction of a row, for every word in the row, is well-formed and encodes to the word. -/
def OpcodeRow.Encodes (r : OpcodeRow) : Prop :=
  ∀ w : Word, w &&& r.mask = r.pat → (r.build w).WellFormed ∧ encode (r.build w) = w

theorem addressFits_fieldNnn (w : Word) : addressFits (fieldNnn w) = true := by
  have h := fieldNnn_toNat w
  exact decide_eq_true (by omega)

theorem heightFits_fieldN (w : Word) : heightFits (fieldN w) = true := by
  have h := fieldN_eq w
  exact decide_eq_true (by omega)

/-- The word is made again from its family and `nnn`. -/
theorem wordFNnn_fields {w : Word} {f : Nat} (hf : fieldFamily w = f) :
    wordFNnn f (fieldNnn w) = w := by
  have hw := w.isLt
  rw [fieldFamily_eq] at hf
  have hn := fieldNnn_toNat w
  have hf16 : f < 16 := by omega
  have hlt : (fieldNnn w).toNat < 4096 := by omega
  exact BitVec.eq_of_toNat_eq ((wordFNnn_toNat hf16 hlt).trans (by omega))

/-- The word is made again from its family, `x` and low byte. -/
theorem wordFXKk_fields {w : Word} {f low : Nat} (hf : fieldFamily w = f)
    (hl : w.toNat % 256 = low) : wordFXKk f (fieldX w) low = w := by
  have hw := w.isLt
  rw [fieldFamily_eq] at hf
  have hx := fieldX_val w
  have hf16 : f < 16 := by omega
  have hlt : low < 256 := by omega
  exact BitVec.eq_of_toNat_eq ((wordFXKk_toNat _ hf16 hlt).trans (by omega))

/-- The word is made again from its four digits. -/
theorem wordFXYN_fields {w : Word} {f n : Nat} (hf : fieldFamily w = f)
    (hn : w.toNat % 16 = n) : wordFXYN f (fieldX w) (fieldY w) n = w := by
  have hw := w.isLt
  rw [fieldFamily_eq] at hf
  have hx := fieldX_val w
  have hy := fieldY_val w
  have hf16 : f < 16 := by omega
  have hlt : n < 16 := by omega
  exact BitVec.eq_of_toNat_eq ((wordFXYN_toNat _ _ hf16 hlt).trans (by omega))

theorem encodes_FFFF {pat : Word} {i : Instr} (hwf : i.WellFormed) (he : encode i = pat) :
    OpcodeRow.Encodes ⟨pat, 0xFFFF, fun _ => i⟩ :=
  fun w hw => ⟨hwf, he.trans (hw.symm.trans (and_FFFF_eq w))⟩

theorem encodes_FNnn {pat : Word} {mk : Word → Instr} (f : Nat)
    (hwf : ∀ nnn, (mk nnn).wellFormed = addressFits nnn := by intros; rfl)
    (he : ∀ nnn, encode (mk nnn) = wordFNnn f nnn := by intros; rfl)
    (hp : pat.toNat = f * 4096 := by rfl) :
    OpcodeRow.Encodes ⟨pat, 0xF000, fun w => mk (fieldNnn w)⟩ :=
  fun w hw => ⟨(hwf _).trans (addressFits_fieldNnn w),
    (he _).trans (wordFNnn_fields (family_digit ((family_of_mask_F000 hw).trans hp)))⟩

theorem encodes_FXKk {pat : Word} {mk : RegIx → Byte → Instr} (f : Nat)
    (hwf : ∀ x kk, (mk x kk).WellFormed := by intros; rfl)
    (he : ∀ x kk, encode (mk x kk) = wordFXKk f x kk.toNat := by intros; rfl)
    (hp : pat.toNat = f * 4096 := by rfl) :
    OpcodeRow.Encodes ⟨pat, 0xF000, fun w => mk (fieldX w) (fieldKk w)⟩ :=
  fun w hw => ⟨hwf _ _, (he _ _).trans
    (wordFXKk_fields (family_digit ((family_of_mask_F000 hw).trans hp)) (fieldKk_toNat w).symm)⟩

theorem encodes_FXLow {pat : Word} {mk : RegIx → Instr} (f low : Nat)
    (hwf : ∀ x, (mk x).WellFormed := by intros; rfl)
    (he : ∀ x, encode (mk x) = wordFXKk f x low := by intros; rfl)
    (hp : pat.toNat / 4096 * 4096 = f * 4096 ∧ pat.toNat % 256 = low := by exact ⟨rfl, rfl⟩) :
    OpcodeRow.Encodes ⟨pat, 0xF0FF, fun w => mk (fieldX w)⟩ := by
  intro w hw
  obtain ⟨hf, hl⟩ := fields_of_mask_F0FF hw
  exact ⟨hwf _, (he _).trans (wordFXKk_fields (family_digit (hf.trans hp.1)) (hl.trans hp.2))⟩

theorem encodes_FXYN {pat : Word} {mk : RegIx → RegIx → Instr} (f n : Nat)
    (hwf : ∀ x y, (mk x y).WellFormed := by intros; rfl)
    (he : ∀ x y, encode (mk x y) = wordFXYN f x y n := by intros; rfl)
    (hp : pat.toNat / 4096 * 4096 = f * 4096 ∧ pat.toNat % 16 = n := by exact ⟨rfl, rfl⟩) :
    OpcodeRow.Encodes ⟨pat, 0xF00F, fun w => mk (fieldX w) (fieldY w)⟩ := by
  intro w hw
  obtain ⟨hf, hn⟩ := fields_of_mask_F00F hw
  exact ⟨hwf _ _, (he _ _).trans (wordFXYN_fields (family_digit (hf.trans hp.1)) (hn.trans hp.2))⟩

theorem encodes_drw :
    OpcodeRow.Encodes ⟨0xD000, 0xF000, fun w => .drw (fieldX w) (fieldY w) (fieldN w)⟩ :=
  fun w hw => ⟨heightFits_fieldN w,
    wordFXYN_fields (family_digit (family_of_mask_F000 hw)) (fieldN_eq w).symm⟩

/-- Each row of the map holds the encodings of its instructions. -/
theorem opcodeTable_encodes : ∀ r ∈ opcodeTable, r.Encodes := by
  simp only [opcodeTable, opcodeRows1To20, opcodeRows21To34, List.forall_mem_append,
    List.forall_mem_cons]
  exact ⟨⟨⟨encodes_FFFF rfl rfl, encodes_FFFF rfl rfl, encodes_FNnn 0x1, encodes_FNnn 0xB,
        encodes_FNnn 0x2, encodes_FXKk 0x3, encodes_FXKk 0x4, encodes_FXYN 0x5 0x0,
        encodes_FXYN 0x9 0x0, encodes_FXKk 0x6, List.forall_mem_nil _⟩,
      encodes_FXKk 0x7, encodes_FXYN 0x8 0x0, encodes_FXYN 0x8 0x1, encodes_FXYN 0x8 0x2,
      encodes_FXYN 0x8 0x3, encodes_FXYN 0x8 0x4, encodes_FXYN 0x8 0x5, encodes_FXYN 0x8 0x6,
      encodes_FXYN 0x8 0x7, encodes_FXYN 0x8 0xE, List.forall_mem_nil _⟩,
    ⟨encodes_FNnn 0xA, encodes_FXKk 0xC, encodes_drw, encodes_FXLow 0xE 0x9E,
      encodes_FXLow 0xE 0xA1, encodes_FXLow 0xF 0x07, encodes_FXLow 0xF 0x0A,
      List.forall_mem_nil _⟩,
    encodes_FXLow 0xF 0x15, encodes_FXLow 0xF 0x18, encodes_FXLow 0xF 0x1E, encodes_FXLow 0xF 0x29,
    encodes_FXLow 0xF 0x33, encodes_FXLow 0xF 0x55, encodes_FXLow 0xF 0x65, List.forall_mem_nil _⟩

/-- A word that decodes to an instruction is in a row that makes the instruction from its fields. -/
theorem row_of_decode {w : Word} {i : Instr} (h : decode w = .insn i) :
    ∃ r ∈ opcodeTable, w &&& r.mask = r.pat ∧ r.build w = i := by
  obtain ⟨r, hr, hw⟩ := inSomeRow_of_decode h
  exact ⟨r, hr, hw, Decoded.insn.inj ((opcodeTable_decodes r hr w hw).symm.trans h)⟩

/-- The encoding of each instruction lies in its row of the map: the per-instruction laws together. -/
theorem encode_inRow (i : Instr) : Statement i := by
  cases i with
  | cls => exact cls
  | ret => exact ret
  | jp nnn => exact jp nnn
  | jpV0 nnn => exact jpV0 nnn
  | call nnn => exact call nnn
  | seVxKk x kk => exact seVxKk x kk
  | sneVxKk x kk => exact sneVxKk x kk
  | seVxVy x y => exact seVxVy x y
  | sneVxVy x y => exact sneVxVy x y
  | ldVxKk x kk => exact ldVxKk x kk
  | addVxKk x kk => exact addVxKk x kk
  | ldVxVy x y => exact ldVxVy x y
  | orVxVy x y => exact orVxVy x y
  | andVxVy x y => exact andVxVy x y
  | xorVxVy x y => exact xorVxVy x y
  | addVxVy x y => exact addVxVy x y
  | sub x y => exact sub x y
  | shr x y => exact shr x y
  | subn x y => exact subn x y
  | shl x y => exact shl x y
  | ldINnn nnn => exact ldINnn nnn
  | rnd x kk => exact rnd x kk
  | drw x y n => exact drw x y n
  | skp x => exact skp x
  | sknp x => exact sknp x
  | ldVxDt x => exact ldVxDt x
  | ldVxK x => exact ldVxK x
  | ldDtVx x => exact ldDtVx x
  | ldStVx x => exact ldStVx x
  | addIVx x => exact addIVx x
  | ldFVx x => exact ldFVx x
  | ldBVx x => exact ldBVx x
  | ldMIVx x => exact ldMIVx x
  | ldVxMI x => exact ldVxMI x

theorem decode_encode {i : Instr} (hi : i.WellFormed) : decode (encode i) = .insn i := by
  obtain ⟨r, hr, hrow, hbuild⟩ := encode_inRow i hi
  rw [opcodeTable_decodes r hr _ hrow, hbuild]

theorem decodeBytes_encodeBytes {i : Instr} (hi : i.WellFormed) (rest : List Byte) :
    decodeBytes (encodeBytes i ++ rest) = .ok (i, rest) := by
  simp only [encodeBytes, List.cons_append, List.nil_append, decodeBytes, composeWord_bytes,
    decode_encode hi]

/-- Settles O56: by the row that each encoding lies in and what that row decodes to. -/
theorem decodeOfEncode : Obligations.DecodeOfEncode :=
  fun _ hi => ⟨decode_encode hi, decodeBytes_encodeBytes hi⟩

/-- Settles O57: by the row that a decoded word lies in and what that row encodes. -/
theorem encodeOfDecode : Obligations.EncodeOfDecode := by
  intro w i h
  obtain ⟨r, hr, hrow, rfl⟩ := row_of_decode h
  exact opcodeTable_encodes r hr w hrow

/-- Settles O58: each row decodes to its instruction, and what decodes is in a row. -/
theorem decodeFollowsOpcodeMap : Obligations.DecodeFollowsOpcodeMap :=
  ⟨opcodeTable_decodes, fun _ hno =>
    decode_unknown_of_not_inRow fun ⟨r, hr, hrow⟩ => hno r hr hrow⟩

/-! ### The rows are disjoint -/

/-- Two rows share no word when their match values differ under both masks. -/
theorem rows_disjoint {r r' : OpcodeRow} (h : r.pat &&& r'.mask ≠ r'.pat &&& r.mask) (w : Word) :
    ¬ (w &&& r.mask = r.pat ∧ w &&& r'.mask = r'.pat) := by
  rintro ⟨hr, hr'⟩
  apply h
  rw [← hr, ← hr', BitVec.and_assoc, BitVec.and_assoc, BitVec.and_comm r.mask]

/-- Settles O59: every two rows differ in a digit that both masks compare. -/
theorem opcodeRowsAreDisjoint : Obligations.OpcodeRowsAreDisjoint := by
  have hdiffer : opcodeTable.Pairwise fun r r' => r.pat &&& r'.mask ≠ r'.pat &&& r.mask := by decide
  exact ⟨rfl, hdiffer.imp rows_disjoint⟩

/-- Settles O60: each word is in its row, and the row's fields are the operands. -/
theorem sampleWordsDecode : Obligations.SampleWordsDecode :=
  ⟨decodesRow_call _ rfl, decodesRow_sneVxKk _ rfl, decodesRow_subn _ rfl, decodesRow_ldMIVx _ rfl,
    decodesRow_drw _ rfl, decodesRow_ldVxDt _ rfl⟩

end Sys2Proof
end

section
/-! PROOFS. The call stack (40_control_flow.md R111, R114): what a call and a return answer with and
without room, their frame, and the statements about 2nnn and 00EE. -/

namespace Sys2Proof.Machine

/-- From `s` over `t` to `u`, nothing changes that neither change may change. -/
theorem ChangesOnly.trans {w : Set Part} {s t u : State} (h : ChangesOnly w s t)
    (h' : ChangesOnly w t u) : ChangesOnly w s u := by
  intro p hp
  have h1 := h p hp
  have h2 := h' p hp
  cases p <;> exact h2.trans h1

theorem ChangesOnly.mono {w w' : Set Part} {s t : State} (h : ChangesOnly w s t) (hw : w ⊆ w') :
    ChangesOnly w' s t :=
  fun p hp => h p fun hp' => hp (hw hp')

/-- 2nnn with room on the stack (R114). -/
theorem exec_call_room {s : State} (nnn : Word) (h : s.stack.length < 16) :
    exec (.call nnn) s = .next ((s.setStack (s.stack ++ [s.pc + 2])).setPc nnn) := by
  rcases exec_call_cases nnn s with ⟨_, he⟩ | ⟨hfull, _⟩
  · exact he
  · exact absurd h (Nat.not_lt.mpr hfull)

/-- 2nnn on a full stack (R242). -/
theorem exec_call_full {s : State} (nnn : Word) (h : 16 ≤ s.stack.length) :
    exec (.call nnn) s = .next (s.takeFatal (.stackOverflow s.pc)) := by
  rcases exec_call_cases nnn s with ⟨hroom, _⟩ | ⟨_, he⟩
  · exact absurd hroom (Nat.not_lt.mpr h)
  · exact he

/-- 00EE with an entry on the stack (R111). -/
theorem exec_ret_top {s : State} {rest : List Word} {top : Word} (h : s.stack = rest ++ [top]) :
    exec .ret s = .next ((s.setStack rest).setPc top) := by
  simp only [exec, execRet, State.pop_top h, State.orHalt_ok]

/-- 00EE on an empty stack (R243). -/
theorem exec_ret_empty {s : State} (h : s.stack = []) :
    exec .ret s = .next (s.takeFatal (.stackUnderflow s.pc)) := by
  simp only [exec, execRet, State.pop_empty h, State.orHalt_error]

/-- A push or a pop with a jump changes the stack and PC only. -/
theorem State.setStack_setPc_changesOnly (s : State) (k : List Word) (w : Word) :
    ChangesOnly {.pc, .stack} s ((s.setStack k).setPc w) := by
  intro p hp
  cases p with
  | pc => exact absurd (.inl rfl) hp
  | stack => exact absurd (.inr rfl) hp
  | _ => rfl

/-- Settles O3: by the meaning of 2nnn with room on the stack. -/
theorem callPushesReturnAddress : Obligations.CallPushesReturnAddress :=
  ⟨decodesRow_call, fun nnn s hroom =>
    ⟨_, exec_call_room nnn hroom, rfl, rfl, s.setStack_setPc_changesOnly _ nnn⟩⟩

/-- Settles O4: by the meaning of 00EE with an entry on the stack. -/
theorem returnPopsIntoPc : Obligations.ReturnPopsIntoPc :=
  ⟨decode_ret, fun s rest top hst =>
    ⟨_, exec_ret_top hst, rfl, rfl, s.setStack_setPc_changesOnly rest top⟩⟩

/-- Settles O5: the return pops the entry that the call pushed, so the stack is the old one. -/
theorem returnUndoesCall : Obligations.ReturnUndoesCall := by
  intro nnn s t hroom hcall
  rw [exec_call_room nnn hroom] at hcall
  cases hcall
  refine ⟨_, exec_ret_top (rest := s.stack) (top := s.pc + 2) rfl, rfl, ?_⟩
  exact s.setPc_changesOnly (s.pc + 2)

/-- Settles O6: by the two meanings of a call and the two of a return. -/
theorem stackErrorsAreReported : Obligations.StackErrorsAreReported := by
  refine ⟨fun nnn s hfull => ⟨_, exec_call_full nnn hfull.ge, rfl, rfl⟩,
    fun nnn s hroom => ⟨_, exec_call_room nnn hroom, rfl, rfl⟩,
    fun s hempty => ⟨_, exec_ret_empty (List.eq_nil_of_length_eq_zero hempty), rfl, rfl⟩,
    fun s hentry => ?_⟩
  have hne : s.stack ≠ [] := List.ne_nil_of_length_pos hentry
  exact ⟨_, exec_ret_top (List.dropLast_append_getLast hne).symm, rfl, rfl⟩

/-- Settles O7: by the frame of a fatal error. -/
theorem stackErrorsCommitNothing : Obligations.StackErrorsCommitNothing := by
  refine ⟨fun nnn s t hfull h => ?_, fun s t hempty h => ?_⟩
  · rw [exec_call_full nnn hfull] at h
    cases h
    exact s.takeFatal_changesOnly _
  · rw [exec_ret_empty hempty] at h
    cases h
    exact s.takeFatal_changesOnly _

end Sys2Proof.Machine
end

section
/-! PROOFS. Skips on registers and on the key (41_conditional_skip.md R133 to R136). -/

namespace Sys2Proof.Machine

/-- Family 5 has no row with another low digit than 0 (30_encoding.md R90). -/
theorem decode_family5_unknown {w : Word} (hf : fieldFamily w = 5) (hn : fieldN w ≠ 0) :
    decode w = .unknown w := by
  have hfam : decode w = decodeFamily5 w := by simp only [decode, hf]
  rw [hfam, decodeFamily5]
  split
  next h0 => exact absurd h0 hn
  next => rfl

/-- Family 9 has no row with another low digit than 0 (30_encoding.md R90). -/
theorem decode_family9_unknown {w : Word} (hf : fieldFamily w = 9) (hn : fieldN w ≠ 0) :
    decode w = .unknown w := by
  have hfam : decode w = decodeFamily9 w := by simp only [decode, hf]
  rw [hfam, decodeFamily9]
  split
  next h0 => exact absurd h0 hn
  next => rfl

/-- Settles O9: by the meanings of 5xy0 and 9xy0, and the families 5 and 9 without other rows. -/
theorem skipOnRegister : Obligations.SkipOnRegister := by
  refine ⟨decodesRow_seVxVy, decodesRow_sneVxVy, fun w hf hn => ?_, fun x y s =>
    ⟨⟨_, exec_seVxVy x y s, s.skipIf_decide_pc (s.reg x = s.reg y), s.skipIf_changesOnly _⟩,
      ⟨_, exec_sneVxVy x y s, s.skipIf_decide_not_pc (s.reg x = s.reg y), s.skipIf_changesOnly _⟩⟩⟩
  have hfam := fieldFamily_eq w
  rw [← fieldN_eq] at hn
  rcases hf with hf | hf
  · exact decode_family5_unknown (by omega) hn
  · exact decode_family9_unknown (by omega) hn

/-- Settles O10: the key comparison decides both skips, one each way (log 11). -/
theorem skipOnKey : Obligations.SkipOnKey := by
  refine ⟨decodesRow_skp, decodesRow_sknp, fun x s => ⟨_, _, exec_skp x s, exec_sknp x s,
    s.skipIf_changesOnly _, s.skipIf_changesOnly _, fun hheld => ?_, fun hnot => ?_⟩⟩
  · have hkey : s.keyIs (s.reg x) = true := (s.keyIs_iff _).mpr hheld
    simp only [State.skipIf_pc, hkey, Bool.not_true, if_true, Bool.false_eq_true, if_false, and_self]
  · have hkey : s.keyIs (s.reg x) = false := by
      rw [← Bool.not_eq_true, State.keyIs_iff]
      exact fun ⟨k, hk, he⟩ => hnot k hk he
    simp only [State.skipIf_pc, hkey, Bool.not_false, if_true, Bool.false_eq_true, if_false, and_self]

end Sys2Proof.Machine
end

section
/-! PROOFS. Arithmetic with a flag, the shifts and the random byte (42_register_alu.md R157 to R162):
what an instruction with a result and a flag leaves, the results and flags as numbers, and the
statements. -/

namespace Sys2Proof.Machine

/-- The result stays in its register unless that register is VF, which is written last (R150). -/
theorem State.setResultFlag_advance_result (s : State) {x : RegIx} (hx : x ≠ 15) (r f : Byte) :
    (s.setResultFlag x r f).advance.reg x = r := by
  rw [State.advance_reg, State.setResultFlag_reg, if_neg hx, if_pos rfl]

theorem State.setResultFlag_advance_flag (s : State) (x : RegIx) (r f : Byte) :
    (s.setResultFlag x r f).advance.reg 15 = f := by
  rw [State.advance_reg, State.setResultFlag_reg, if_pos rfl]

theorem State.setResultFlag_advance_pc (s : State) (x : RegIx) (r f : Byte) :
    (s.setResultFlag x r f).advance.pc = s.pc + 2 := by
  rw [State.advance_pc, State.setResultFlag_pc]

/-- A result, its flag and the normal advance change the register, VF and PC only. -/
theorem State.setResultFlag_advance_changesOnly (s : State) (x : RegIx) (r f : Byte) :
    ChangesOnly {.reg x, .reg 15, .pc} s (s.setResultFlag x r f).advance := by
  intro p hp
  cases p with
  | reg y =>
    have hx : y ≠ x := fun h => hp (.inl (congrArg Part.reg h))
    have hflag : y ≠ 15 := fun h => hp (.inr (.inl (congrArg Part.reg h)))
    show (s.setResultFlag x r f).reg y = s.reg y
    rw [State.setResultFlag_reg, if_neg hflag, if_neg hx]
  | pc => exact absurd (.inr (.inr rfl)) hp
  | _ => rfl

/-! ### The results and flags as numbers -/

theorem flagByte_decide_toNat (p : Prop) [Decidable p] :
    (flagByte (decide p)).toNat = if p then 1 else 0 := by
  simp only [flagByte_toNat, decide_eq_true_eq]

theorem byte_sub_toNat (a b : Byte) : (a - b).toNat = (a.toNat + 256 - b.toNat) % 256 := by
  have hb := b.isLt
  rw [BitVec.toNat_sub]
  omega

theorem lowBitFlag_toNat (a : Byte) : (lowBitFlag a).toNat = a.toNat % 2 := by
  rw [lowBitFlag, BitVec.toNat_and]
  exact Nat.and_one_is_mod a.toNat

theorem highBitFlag_toNat (a : Byte) : (highBitFlag a).toNat = a.toNat / 128 := by
  have ha := a.isLt
  have hshift : (a >>> 7).toNat = a.toNat / 128 := by
    rw [BitVec.toNat_ushiftRight, Nat.shiftRight_eq_div_pow]
  have hlow := lowBitFlag_toNat (a >>> 7)
  rw [hshift] at hlow
  exact hlow.trans (Nat.mod_eq_of_lt (by omega))

theorem byte_shiftRight_one_toNat (a : Byte) : (a >>> 1).toNat = a.toNat / 2 := by
  rw [BitVec.toNat_ushiftRight, Nat.shiftRight_eq_div_pow, pow_one]

theorem byte_shiftLeft_one_toNat (a : Byte) : (a <<< 1).toNat = a.toNat * 2 % 256 := by
  rw [BitVec.toNat_shiftLeft, Nat.shiftLeft_eq, pow_one]

/-! ### The statements -/

/-- Settles O13: by the meaning of 8xy4 and the rules of a result with a flag. -/
theorem addSetsCarry : Obligations.AddSetsCarry :=
  ⟨decodesRow_addVxVy, fun x y s => ⟨_, exec_addVxVy x y s,
    fun hx => by rw [s.setResultFlag_advance_result hx, BitVec.toNat_add],
    by rw [State.setResultFlag_advance_flag, carryFlag, flagByte_decide_toNat],
    s.setResultFlag_advance_pc x _ _, s.setResultFlag_advance_changesOnly x _ _⟩⟩

/-- Settles O14: by the meanings of 8xy5 and 8xy7 and the rules of a result with a flag. -/
theorem subtractSetsStrictGreater : Obligations.SubtractSetsStrictGreater :=
  ⟨decodesRow_sub, decodesRow_subn, fun x y s =>
    ⟨⟨_, exec_sub x y s,
        fun hx => by rw [s.setResultFlag_advance_result hx, byte_sub_toNat],
        by rw [State.setResultFlag_advance_flag, greaterFlag, flagByte_decide_toNat],
        s.setResultFlag_advance_pc x _ _, s.setResultFlag_advance_changesOnly x _ _⟩,
      ⟨_, exec_subn x y s,
        fun hx => by rw [s.setResultFlag_advance_result hx, byte_sub_toNat],
        by rw [State.setResultFlag_advance_flag, greaterFlag, flagByte_decide_toNat],
        s.setResultFlag_advance_pc x _ _, s.setResultFlag_advance_changesOnly x _ _⟩⟩⟩

/-- Settles O15: by the meanings of 8xy6 and 8xyE and the rules of a result with a flag. -/
theorem shiftsSetBitShiftedOut : Obligations.ShiftsSetBitShiftedOut :=
  ⟨decodesRow_shr, decodesRow_shl, fun x y s =>
    ⟨⟨_, exec_shr x y s,
        fun hx => by rw [s.setResultFlag_advance_result hx, byte_shiftRight_one_toNat],
        by rw [State.setResultFlag_advance_flag, lowBitFlag_toNat],
        s.setResultFlag_advance_pc x _ _, s.setResultFlag_advance_changesOnly x _ _⟩,
      ⟨_, exec_shl x y s,
        fun hx => by rw [s.setResultFlag_advance_result hx, byte_shiftLeft_one_toNat],
        by rw [State.setResultFlag_advance_flag, highBitFlag_toNat],
        s.setResultFlag_advance_pc x _ _, s.setResultFlag_advance_changesOnly x _ _⟩⟩⟩

/-- Cxkk changes its register, the count of random bytes and PC only. -/
theorem State.drewRandom_setReg_advance_changesOnly (s : State) (x : RegIx) (b : Byte) :
    ChangesOnly {.reg x, .rngDraws, .pc} s (s.drewRandom.setReg x b).advance := by
  intro p hp
  cases p with
  | rngDraws => exact absurd (.inr (.inl rfl)) hp
  | reg r =>
    have hrx : r ≠ x := fun h => hp (.inl (congrArg Part.reg h))
    exact s.drewRandom.setReg_reg_other b hrx
  | pc => exact absurd (.inr (.inr rfl)) hp
  | _ => rfl

/-- Settles O16: by the meaning of Cxkk, whatever byte the source gives. -/
theorem randomDrawIsMasked : Obligations.RandomDrawIsMasked :=
  ⟨decodesRow_rnd, fun x kk s => ⟨_, exec_rnd x kk s, s.drewRandom.setReg_advance_reg x _, rfl, rfl,
    s.drewRandom_setReg_advance_changesOnly x _⟩⟩

end Sys2Proof.Machine
end

section
/-! PROOFS. The index register and memory (43_index_memory.md R182 to R186, 20_memory.md R61 to R63):
what each access answers inside the space and outside it, its frame, and the statements. -/

namespace Sys2Proof.Machine

/-! ### Index arithmetic -/

/-- Fx1E adds the register mod 65536. -/
theorem index_add_reg_toNat (i : Word) (b : Byte) :
    (i + b.setWidth 16).toNat = (i.toNat + b.toNat) % 65536 := by
  have hb : (b.setWidth 16).toNat = b.toNat := BitVec.toNat_setWidth_of_le (by decide)
  rw [BitVec.toNat_add, hb]

/-- Fx55 and Fx65 move `I` on mod 65536. -/
theorem State.bumpI_i_toNat (s : State) (x : RegIx) :
    (s.bumpI x).i.toNat = (s.i.toNat + x.val + 1) % 65536 := by
  have hx := x.isLt
  rw [State.bumpI_i, BitVec.toNat_add, BitVec.toNat_ofNat]
  omega

/-- Settles O18: by the meanings of Fx1E and Fx29, their sums as numbers and the frame of an index
write. -/
theorem indexArithmetic : Obligations.IndexArithmetic :=
  ⟨decodesRow_addIVx, decodesRow_ldFVx, fun x s =>
    ⟨⟨_, exec_addIVx x s, index_add_reg_toNat s.i (s.reg x), rfl, s.setI_advance_changesOnly _⟩,
      ⟨_, exec_ldFVx x s, (glyphOffset_toNat (s.reg x)).trans (Nat.mul_comm _ _), rfl,
        s.setI_advance_changesOnly _⟩⟩⟩

/-! ### Bytes, words and runs of bytes -/

/-- Settles O23: by what a byte access answers on each side of 4096 and a read after a write. -/
theorem byteAccessReadsLastWrite : Obligations.ByteAccessReadsLastWrite := by
  intro m a u
  refine ⟨fun hout => ⟨memRead_error hout, memWrite_error hout⟩, fun hin => ⟨memRead_ok hin,
    fun hm => ⟨m.set a u, memWrite_ok hin, Memory.wf_set u hm hin, ?_, fun b hb => ?_⟩⟩⟩
  · rw [memRead_ok hin, Memory.get_set hm, if_pos rfl]
  · rw [memRead_eq, memRead_eq, Memory.get_set hm, if_neg hb]

/-- Settles O24: by the fetch on each side of the edge and the word of two bytes. -/
theorem fetchIsBigEndian : Obligations.FetchIsBigEndian :=
  fun _ _ => ⟨fun hin => ⟨_, fetch16_ok hin, composeWord_toNat _ _⟩, fetch16_error⟩

/-- The bytes that a run of reads answers, by their offset. -/
theorem getD_readRun {n k : Nat} (f : Nat → Byte) (hk : k < n) :
    ((List.range n).map f).getD k 0 = f k := by
  rw [List.getD_eq_getElem?_getD, List.getElem?_map, List.getElem?_range hk]
  rfl

/-- The three digits that Fx33 stores, by their offset. -/
theorem bcdDigits_getD_toNat (b : Byte) :
    ((bcdDigits b).getD 0 0).toNat = b.toNat / 100 ∧
      ((bcdDigits b).getD 1 0).toNat = b.toNat / 10 % 10 ∧
      ((bcdDigits b).getD 2 0).toNat = b.toNat % 10 := by
  have hdigits := bcdDigits_toNat b
  simp only [bcdDigits, List.map_cons, List.map_nil, List.cons.injEq, and_true] at hdigits
  exact hdigits

/-- The byte that Fx55 stores at offset `r` is `V[r]`. -/
theorem State.regsUpTo_getD (s : State) {x r : RegIx} (h : r ≤ x) :
    (s.regsUpTo x).getD r.val 0 = s.reg r := by
  rw [List.getD_eq_getElem?_getD, s.regsUpTo_get x r h]
  rfl

/-- A byte that is not among a run of bytes lies outside it. -/
theorem not_inRun_of_not_mem_bytes {a n b : Nat} (h : Part.byte b ∉ Part.bytes a n) :
    ¬ (a ≤ b ∧ b < a + n) := by
  rintro ⟨hlo, hhi⟩
  exact h ⟨b - a, by omega, congrArg Part.byte (by omega)⟩

/-! ### The frame of a new memory -/

section
variable {s : State} {m : Memory} {w : Set Part}
  (h : ∀ b, Part.byte b ∉ w → m.get b = s.mem.get b)
include h

/-- A new memory changes the bytes in which it differs, nothing else. -/
theorem State.setMem_changesOnly : ChangesOnly w s (s.setMem m) := by
  intro p hp
  cases p with
  | byte b => exact h b hp
  | _ => rfl

theorem State.setMem_advance_changesOnly (hpc : Part.pc ∈ w) :
    ChangesOnly w s (s.setMem m).advance :=
  (State.setMem_changesOnly h).trans
    (((s.setMem m).setPc_changesOnly _).mono (Set.singleton_subset_iff.mpr hpc))

/-- With `I` moved on too, as Fx55 leaves it. -/
theorem State.setMem_bumpI_advance_changesOnly (x : RegIx) (hpc : Part.pc ∈ w) (hi : Part.i ∈ w) :
    ChangesOnly w s ((s.setMem m).bumpI x).advance :=
  (State.setMem_changesOnly h).trans
    (((s.setMem m).setI_advance_changesOnly _).mono (Set.pair_subset hi hpc))

end

/-! ### Fx33 -/

/-- Fx33 whose store answers a memory (R184). -/
theorem exec_ldBVx_stored {x : RegIx} {s : State} {m : Memory}
    (h : s.writeAtI (bcdDigits (s.reg x)) = .ok (s.setMem m)) :
    exec (.ldBVx x) s = .next (s.setMem m).advance := by
  simp only [exec, execLdBVx, h, State.orHalt_ok]

/-- Fx33 with its addresses in range, on a canonical memory. -/
theorem exec_ldBVx_inRange {x : RegIx} {s : State} (hm : s.mem.wf = true)
    (h : s.i.toNat + 3 ≤ 4096) :
    ∃ m, exec (.ldBVx x) s = .next (s.setMem m).advance ∧
      ∀ b, m.get b = if s.i.toNat ≤ b ∧ b < s.i.toNat + 3 then
        (bcdDigits (s.reg x)).getD (b - s.i.toNat) 0 else s.mem.get b := by
  obtain ⟨m, hw, _, hget⟩ := State.writeAtI_ok (bs := bcdDigits (s.reg x)) hm h
  exact ⟨m, exec_ldBVx_stored hw, hget⟩

/-- Settles O19: the three bytes at `I` are the digits, every other byte is kept. -/
theorem bcdStoresThreeDigits : Obligations.BcdStoresThreeDigits := by
  refine ⟨decodesRow_ldBVx, fun x s hm hin => ?_⟩
  simp only [State.effAddr_eq] at hin ⊢
  obtain ⟨m, hexec, hget⟩ := exec_ldBVx_inRange (x := x) hm hin
  have hdigit : ∀ k, k < 3 → m.get (s.i.toNat + k) = (bcdDigits (s.reg x)).getD k 0 := fun k hk => by
    rw [hget, if_pos ⟨Nat.le_add_right _ _, by omega⟩, Nat.add_sub_cancel_left]
  obtain ⟨h100, h10, h1⟩ := bcdDigits_getD_toNat (s.reg x)
  refine ⟨_, hexec, ?_, ?_, ?_, rfl,
    State.setMem_advance_changesOnly (fun b hb => ?_) (.inl rfl)⟩
  · exact (congrArg BitVec.toNat (hdigit 0 (by omega))).trans h100
  · exact (congrArg BitVec.toNat (hdigit 1 (by omega))).trans h10
  · exact (congrArg BitVec.toNat (hdigit 2 (by omega))).trans h1
  · exact (hget b).trans (if_neg (not_inRun_of_not_mem_bytes fun hmem => hb (.inr hmem)))

/-! ### Fx55 -/

/-- Fx55 whose store answers a memory (R185). -/
theorem exec_ldMIVx_stored {x : RegIx} {s : State} {m : Memory}
    (h : s.writeAtI (s.regsUpTo x) = .ok (s.setMem m)) :
    exec (.ldMIVx x) s = .next ((s.setMem m).bumpI x).advance := by
  simp only [exec, execLdMIVx, h, State.orHalt_ok]

/-- Fx55 with its addresses in range, on a canonical memory. -/
theorem exec_ldMIVx_inRange {x : RegIx} {s : State} (hm : s.mem.wf = true)
    (h : s.i.toNat + (x.val + 1) ≤ 4096) :
    ∃ m, exec (.ldMIVx x) s = .next ((s.setMem m).bumpI x).advance ∧
      ∀ b, m.get b = if s.i.toNat ≤ b ∧ b < s.i.toNat + (x.val + 1) then
        (s.regsUpTo x).getD (b - s.i.toNat) 0 else s.mem.get b := by
  have hlen := s.regsUpTo_length x
  obtain ⟨m, hw, _, hget⟩ := State.writeAtI_ok (bs := s.regsUpTo x) hm (by rw [hlen]; exact h)
  rw [hlen] at hget
  exact ⟨m, exec_ldMIVx_stored hw, hget⟩

/-- Settles O20: the byte at `I + r` is `V[r]`, every byte outside the run is kept. -/
theorem storeRegistersAtIndex : Obligations.StoreRegistersAtIndex := by
  refine ⟨decodesRow_ldMIVx, fun x s hm hin => ?_⟩
  simp only [State.effAddr_eq] at hin ⊢
  obtain ⟨m, hexec, hget⟩ := exec_ldMIVx_inRange (x := x) hm hin
  refine ⟨_, hexec, fun r hr => ?_, (s.setMem m).bumpI_i_toNat x, rfl,
    State.setMem_bumpI_advance_changesOnly (fun b hb => ?_) x (.inl (.inl rfl)) (.inl (.inr rfl))⟩
  · have hrx : r.val ≤ x.val := hr
    show m.get (s.i.toNat + r.val) = s.reg r
    rw [hget, if_pos ⟨Nat.le_add_right _ _, by omega⟩, Nat.add_sub_cancel_left, s.regsUpTo_getD hr]
  · exact (hget b).trans (if_neg (not_inRun_of_not_mem_bytes fun hmem => hb (.inr hmem)))

/-! ### Fx65 -/

/-- Fx65 with its addresses in range (R186). -/
theorem exec_ldVxMI_inRange {x : RegIx} {s : State} (h : s.i.toNat + (x.val + 1) ≤ 4096) :
    exec (.ldVxMI x) s = .next ((s.loadRegs
      ((List.range (x.val + 1)).map fun k => s.mem.get (s.i.toNat + k))).bumpI x).advance := by
  simp only [exec, execLdVxMI, State.readAtI_ok h, State.orHalt_ok]

/-- Bytes loaded into `V[0]` to `V[x]`, `I` moved on, and the normal advance. -/
theorem State.loadRegs_bumpI_advance_changesOnly (s : State) (x : RegIx) {bs : List Byte}
    (h : bs.length = x.val + 1) :
    ChangesOnly ({.pc, .i} ∪ Part.regsUpTo x) s ((s.loadRegs bs).bumpI x).advance := by
  intro p hp
  cases p with
  | pc => exact absurd (.inl (.inl rfl)) hp
  | i => exact absurd (.inl (.inr rfl)) hp
  | reg r =>
    have hrx : ¬ r.val ≤ x.val := fun hr => hp (.inr ⟨r, hr, rfl⟩)
    show (s.loadRegs bs).reg r = s.reg r
    rw [State.loadRegs_reg, if_neg (by omega)]
  | _ => rfl

/-- Settles O21: `V[r]` is the byte at `I + r`, every register after `V[x]` is kept. -/
theorem loadRegistersFromIndex : Obligations.LoadRegistersFromIndex := by
  refine ⟨decodesRow_ldVxMI, fun x s hin => ?_⟩
  simp only [State.effAddr_eq] at hin ⊢
  refine ⟨_, exec_ldVxMI_inRange hin, fun r hr => ?_, State.bumpI_i_toNat _ x, rfl,
    s.loadRegs_bumpI_advance_changesOnly x (by rw [List.length_map, List.length_range])⟩
  have hrx : r.val < x.val + 1 := Nat.lt_succ_of_le hr
  rw [State.advance_reg, State.bumpI_reg, State.loadRegs_reg, List.length_map, List.length_range,
    if_pos hrx, getD_readRun _ hrx]

/-! ### Data accesses out of range -/

/-- The instruction reads or writes `count` bytes at `I` (R180). -/
def Instr.AccessesAtI (i : Instr) (count : Nat) : Prop :=
  (∃ x y, i = .drw x y count) ∨ ((∃ x, i = .ldBVx x) ∧ count = 3) ∨
    (∃ x : RegIx, (i = .ldMIVx x ∨ i = .ldVxMI x) ∧ count = x.val + 1)

/-- An access at `I` that leaves the space takes MemoryFault at its first address out of range. -/
theorem exec_outOfRange {i : Instr} {count : Nat} {s : State} (hi : Instr.AccessesAtI i count)
    (hc : 0 < count) (h : 4096 < s.i.toNat + count) :
    exec i s = .next (s.takeFatal (.memoryFault s.pc (max s.i.toNat 4096))) := by
  rcases hi with ⟨x, y, rfl⟩ | ⟨⟨x, rfl⟩, rfl⟩ | ⟨x, rfl | rfl, rfl⟩
  · rcases exec_drw_cases x y count s with ⟨hin, _⟩ | ⟨_, _, he⟩
    · omega
    · exact he
  · rcases exec_ldBVx_cases x s with ⟨hin, _⟩ | ⟨_, he⟩
    · omega
    · exact he
  · rcases exec_ldMIVx_cases x s with ⟨hin, _⟩ | ⟨_, he⟩
    · omega
    · exact he
  · rcases exec_ldVxMI_cases x s with ⟨hin, _⟩ | ⟨_, he⟩
    · omega
    · exact he

/-- Settles O22: the four accesses take the fatal error, whose frame is the status and the result. -/
theorem outOfRangeAccessHalts : Obligations.OutOfRangeAccessHalts :=
  fun _ _ s hi hc h => ⟨_, exec_outOfRange hi hc h, rfl, rfl, s.takeFatal_changesOnly _⟩

end Sys2Proof.Machine
end

section
/-! PROOFS. The sprite draw (44_display.md R201): what the sprite-blit unit does to the pixels and the
collision, what Dxyn answers in range, and the statements about one draw and two. -/

namespace Sys2Proof.Machine

/-- A sprite of at most 32 rows inverts the pixels it lights, leaves every other one, and collides
exactly when it lights a set pixel. -/
theorem drawSprite_spec (fb : Framebuffer) (ox oy : Nat) (rows : Nat → Byte) {n : Nat} (hn : n ≤ 32) :
    (∀ c q, SpriteLights rows n ox oy c q →
      (drawSprite fb ox oy ((List.range n).map rows)).fb.pixel c q = !fb.pixel c q) ∧
    (∀ c q, ¬ SpriteLights rows n ox oy c q →
      (drawSprite fb ox oy ((List.range n).map rows)).fb.pixel c q = fb.pixel c q) ∧
    ((drawSprite fb ox oy ((List.range n).map rows)).coll = true ↔
      ∃ c q, SpriteLights rows n ox oy c q ∧ fb.pixel c q = true) := by
  have hlen : ((List.range n).map rows).length = n := by rw [List.length_map, List.length_range]
  obtain ⟨hlit, hkept, hcoll⟩ := Blit.rows_spec (ox % 64) (oy % 32) ((List.range n).map rows) 0
    { fb := fb, coll := false } (by rw [hlen]; omega)
  have hlights : ∀ c q, SpriteLights rows n ox oy c q ↔
      ∃ j b, 0 ≤ j ∧ j < 0 + ((List.range n).map rows).length ∧ b < 8 ∧
        (((List.range n).map rows).getD (j - 0) 0).getLsbD (7 - b) = true ∧
        c.val = (ox % 64 + b) % 64 ∧ q.val = (oy % 32 + j) % 32 := by
    intro c q
    refine exists_congr fun r => exists_congr fun b => ?_
    rw [hlen]
    constructor
    · rintro ⟨hr, hrest⟩
      rw [Nat.sub_zero, getD_readRun rows hr]
      exact ⟨Nat.zero_le r, by omega, hrest⟩
    · rintro ⟨_, hr, hrest⟩
      have hr' : r < n := by omega
      rw [Nat.sub_zero, getD_readRun rows hr'] at hrest
      exact ⟨hr', hrest⟩
  refine ⟨fun c q h => hlit c q ((hlights c q).mp h),
    fun c q h => hkept c q fun h' => h ((hlights c q).mpr h'), hcoll.trans ?_⟩
  simp only [Bool.false_eq_true, false_or, hlights]

/-- The `n` sprite rows that Dxyn reads at `I`. -/
def State.spriteRows (s : State) (n : Nat) : List Byte :=
  (List.range n).map fun k => s.mem.get (s.i.toNat + k)

/-- The sprite of `n` rows at `I`, drawn at the origin `V[x]`, `V[y]`, lights the pixel. -/
def State.Lights (s : State) (x y : RegIx) (n : Nat) (c : Col) (q : Row) : Prop :=
  SpriteLights (fun r => s.mem.get (s.effAddr r)) n (s.reg x).toNat (s.reg y).toNat c q

/-- Dxyn with its rows in range (R201). -/
theorem exec_drw_inRange {x y : RegIx} {n : Nat} {s : State} (h : n = 0 ∨ s.i.toNat + n ≤ 4096) :
    exec (.drw x y n) s = .next (s.draw x y (s.spriteRows n)).advance := by
  rcases exec_drw_cases x y n s with ⟨_, he⟩ | ⟨hn, hout, _⟩
  · exact he
  · omega

section
variable {s : State} {x y : RegIx} {n : Nat} (hn : n ≤ 15)
include hn

theorem State.draw_pixel_lit {c : Col} {q : Row} (h : s.Lights x y n c q) :
    (s.draw x y (s.spriteRows n)).fb.pixel c q = !s.fb.pixel c q :=
  (drawSprite_spec s.fb _ _ _ (by omega)).1 c q h

theorem State.draw_pixel_unlit {c : Col} {q : Row} (h : ¬ s.Lights x y n c q) :
    (s.draw x y (s.spriteRows n)).fb.pixel c q = s.fb.pixel c q :=
  (drawSprite_spec s.fb _ _ _ (by omega)).2.1 c q h

/-- A set pixel that the sprite lights is a collision. -/
theorem State.draw_flag_hit (h : ∃ c q, s.Lights x y n c q ∧ s.fb.pixel c q = true) :
    (s.draw x y (s.spriteRows n)).reg 15 = 1 := by
  have hcoll := (drawSprite_spec s.fb (s.reg x).toNat (s.reg y).toNat _ (by omega)).2.2.mpr h
  rw [State.draw_reg, if_pos rfl]
  exact congrArg flagByte hcoll

/-- Without a set pixel that the sprite lights there is no collision. -/
theorem State.draw_flag_miss (h : ∀ c q, s.Lights x y n c q → s.fb.pixel c q = false) :
    (s.draw x y (s.spriteRows n)).reg 15 = 0 := by
  have hcoll : ¬ (drawSprite s.fb (s.reg x).toNat (s.reg y).toNat (s.spriteRows n)).coll = true := by
    intro hc
    obtain ⟨c, q, hlit, hset⟩ := (drawSprite_spec s.fb _ _ _ (by omega)).2.2.mp hc
    exact Bool.false_ne_true ((h c q hlit).symm.trans hset)
  rw [State.draw_reg, if_pos rfl, Bool.eq_false_of_not_eq_true hcoll]
  rfl

end

/-- A draw and the normal advance change the pixels, VF and PC only. -/
theorem State.draw_advance_changesOnly (s : State) (x y : RegIx) (bs : List Byte) :
    ChangesOnly ({.pc, .reg 15} ∪ Part.pixels) s (s.draw x y bs).advance := by
  intro p hp
  cases p with
  | pc => exact absurd (.inl (.inl rfl)) hp
  | pixel c q => exact absurd (.inr ⟨c, q, rfl⟩) hp
  | reg r =>
    have hr : r ≠ 15 := fun h => hp (.inl (.inr (congrArg Part.reg h)))
    show (s.draw x y bs).reg r = s.reg r
    rw [State.draw_reg, if_neg hr]
  | _ => rfl

/-- Settles O26: by what the sprite-blit unit does to a lit pixel, to the others and to the
collision. -/
theorem drawTogglesSpritePixels : Obligations.DrawTogglesSpritePixels :=
  ⟨decodesRow_drw, fun x y _ s hn hin => ⟨_, exec_drw_inRange hin,
    fun _ _ => State.draw_pixel_lit hn, fun _ _ => State.draw_pixel_unlit hn,
    State.draw_flag_hit hn, State.draw_flag_miss hn, rfl, s.draw_advance_changesOnly x y _⟩⟩

/-! ### Drawing twice -/

/-- A draw keeps the sprite and, with `x` and `y` other than VF, its origin. -/
theorem State.lights_after_draw {s : State} {x y : RegIx} (hx : x ≠ 15) (hy : y ≠ 15) (n : Nat)
    (bs : List Byte) (c : Col) (q : Row) :
    (s.draw x y bs).advance.Lights x y n c q ↔ s.Lights x y n c q := by
  have hreg : ∀ r : RegIx, r ≠ 15 → (s.draw x y bs).advance.reg r = s.reg r := fun r hr => by
    rw [State.advance_reg, State.draw_reg, if_neg hr]
  rw [State.Lights, hreg x hx, hreg y hy]
  rfl

/-- A sprite with a bit that is 1 lights a pixel. -/
theorem State.exists_lit {s : State} {n r b : Nat} (x y : RegIx) (hr : r < n) (hb : b < 8)
    (hbit : (s.mem.get (s.i.toNat + r)).getLsbD b = true) : ∃ c q, s.Lights x y n c q := by
  refine ⟨wrapCol ((s.reg x).toNat % 64 + (7 - b)), wrapRow ((s.reg y).toNat % 32 + r), r, 7 - b, hr,
    by omega, ?_, rfl, rfl⟩
  rw [show 7 - (7 - b) = b by omega]
  exact hbit

/-- A sprite of zero rows lights no pixel. -/
theorem State.not_lights_of_zero {s : State} {x y : RegIx} {n : Nat} {c : Col} {q : Row}
    (hzero : ∀ r, r < n → s.mem.get (s.i.toNat + r) = 0) : ¬ s.Lights x y n c q := by
  rintro ⟨r, b, hr, _, hbit, _⟩
  have hoff : (s.mem.get (s.effAddr r)).getLsbD (7 - b) = false := by
    rw [State.effAddr_eq, hzero r hr, BitVec.ofNat_eq_ofNat, BitVec.getLsbD_zero]
  exact Bool.false_ne_true (hoff.symm.trans hbit)

/-- Settles O27: the second draw lights the pixels that the first one did, and inverts them back. -/
theorem drawTwiceRestoresPixels : Obligations.DrawTwiceRestoresPixels := by
  intro x y n s t hx hy hn hin hfirst
  rw [exec_drw_inRange (.inr hin)] at hfirst
  cases hfirst
  have hlights := State.lights_after_draw (s := s) hx hy n (s.spriteRows n)
  refine ⟨_, exec_drw_inRange (.inr hin), fun c q => ?_, fun hclear => ⟨?_, fun hzero => ?_⟩⟩
  · by_cases hlit : s.Lights x y n c q
    · calc _ = !(s.draw x y (s.spriteRows n)).fb.pixel c q :=
            State.draw_pixel_lit hn ((hlights c q).mpr hlit)
        _ = !!s.fb.pixel c q := by rw [State.draw_pixel_lit hn hlit]
        _ = s.fb.pixel c q := Bool.not_not _
    · calc _ = (s.draw x y (s.spriteRows n)).fb.pixel c q :=
            State.draw_pixel_unlit hn fun h => hlit ((hlights c q).mp h)
        _ = s.fb.pixel c q := State.draw_pixel_unlit hn hlit
  · rintro ⟨r, b, hr, hb, hbit⟩
    obtain ⟨c, q, hlit⟩ := State.exists_lit x y hr hb hbit
    refine State.draw_flag_hit hn ⟨c, q, (hlights c q).mpr hlit, ?_⟩
    exact (State.draw_pixel_lit hn hlit).trans (congrArg not (hclear c q))
  · exact State.draw_flag_miss hn fun c q hlit =>
      absurd ((hlights c q).mp hlit) (State.not_lights_of_zero hzero)

end Sys2Proof.Machine
end

section
/-! PROOFS. The key read (45_timer_input.md R222): the frame of a key draw and the statement about
Fx0A. -/

namespace Sys2Proof.Machine

theorem State.drewKey_changesOnly (s : State) : ChangesOnly {.keyDraws} s s.drewKey := by
  intro p hp
  unfold State.drewKey
  split
  · cases p <;> rfl
  · cases p with
    | keyDraws => exact absurd rfl hp
    | _ => rfl

/-- Fx0A changes its register, the count of free key bytes and PC only. -/
theorem State.drewKey_setReg_advance_changesOnly (s : State) (x : RegIx) (b : Byte) :
    ChangesOnly {.reg x, .keyDraws, .pc} s (s.drewKey.setReg x b).advance := by
  have hdraw : ({.keyDraws} : Set Part) ⊆ {.reg x, .keyDraws, .pc} :=
    fun _ hp => .inr (.inl hp)
  have hreg : ({.reg x, .pc} : Set Part) ⊆ {.reg x, .keyDraws, .pc} :=
    Set.insert_subset_insert (Set.subset_insert _ _)
  exact (s.drewKey_changesOnly.mono hdraw).trans
    ((s.drewKey.setReg_advance_changesOnly x b).mono hreg)

/-- The byte of a key held is its number. -/
theorem State.keyByte_toNat {s : State} {k : KeyIx} (h : s.key = some k) :
    s.keyByte.toNat = k.val := by
  have hk := k.isLt
  simp only [State.keyByte, h, BitVec.toNat_ofNat]
  omega

/-- Settles O29: by the meaning of Fx0A, with a key held and with none. -/
theorem keyReadNeverWaits : Obligations.KeyReadNeverWaits := by
  refine ⟨decodesRow_ldVxK, fun x s => ⟨_, exec_ldVxK x s, fun k hk => ⟨?_, ?_⟩, fun hk => ⟨?_, ?_⟩,
    congrArg (· + 2) s.drewKey_pc, s.drewKey_setReg_advance_changesOnly x _⟩⟩
  · rw [State.setReg_advance_reg, State.keyByte_toNat hk]
  · rw [State.advance_keyDraws, State.setReg_keyDraws, State.drewKey_keyDraws, hk]
    rfl
  · simp only [State.setReg_advance_reg, State.keyByte, hk]
  · rw [State.advance_keyDraws, State.setReg_keyDraws, State.drewKey_keyDraws, hk]
    rfl

end Sys2Proof.Machine
end

section
/-! PROOFS. Who writes what (10_state.md R43): the parts that each instruction may write, that an
instruction changes no other part, and the statements about the writers of each part. -/

namespace Sys2Proof.Machine

/-- Every byte of memory. -/
def Part.memory : Set Part := { p | ∃ a, p = .byte a }

/-- The parts of the state that an instruction writes when it completes: the table of R43 read by
instruction, with PC, which every instruction writes. -/
def Instr.writes : Instr → Set Part
  | .cls => {.pc} ∪ Part.pixels
  | .ret | .call _ => {.pc, .stack}
  | .jp _ | .jpV0 _ | .seVxKk _ _ | .sneVxKk _ _ | .seVxVy _ _ | .sneVxVy _ _ | .skp _ | .sknp _ =>
    {.pc}
  | .ldVxKk x _ | .addVxKk x _ | .ldVxVy x _ | .orVxVy x _ | .andVxVy x _ | .xorVxVy x _
  | .ldVxDt x =>
    {.reg x, .pc}
  | .addVxVy x _ | .sub x _ | .shr x _ | .subn x _ | .shl x _ => {.reg x, .reg 15, .pc}
  | .ldINnn _ | .addIVx _ | .ldFVx _ => {.i, .pc}
  | .rnd x _ => {.reg x, .rngDraws, .pc}
  | .drw _ _ _ => {.pc, .reg 15} ∪ Part.pixels
  | .ldVxK x => {.reg x, .keyDraws, .pc}
  | .ldDtVx _ => {.dt, .pc}
  | .ldStVx _ => {.st, .pc}
  | .ldBVx _ => {.pc} ∪ Part.memory
  | .ldMIVx _ => {.pc, .i} ∪ Part.memory
  | .ldVxMI x => {.pc, .i} ∪ Part.regsUpTo x

/-- An instruction that completes changes only the parts it writes. -/
theorem Completes.changesOnly {i : Instr} {s t : State} (h : Completes i s t) :
    ChangesOnly (Instr.writes i) s t := by
  cases i with
  | cls =>
    obtain rfl : t = _ := h
    exact s.setFb_advance_changesOnly _
  | ret =>
    obtain ⟨_, _, _, rfl⟩ := h
    exact s.setStack_setPc_changesOnly _ _
  | call nnn =>
    obtain ⟨_, rfl⟩ := h
    exact s.setStack_setPc_changesOnly _ _
  | jp | jpV0 =>
    obtain rfl : t = _ := h
    exact s.setPc_changesOnly _
  | seVxKk | sneVxKk | seVxVy | sneVxVy | skp | sknp =>
    obtain rfl : t = _ := h
    exact s.skipIf_changesOnly _
  | ldVxKk | addVxKk | ldVxVy | orVxVy | andVxVy | xorVxVy | ldVxDt =>
    obtain rfl : t = _ := h
    exact s.setReg_advance_changesOnly _ _
  | addVxVy | sub | shr | subn | shl =>
    obtain rfl : t = _ := h
    exact s.setResultFlag_advance_changesOnly _ _ _
  | ldINnn | addIVx | ldFVx =>
    obtain rfl : t = _ := h
    exact s.setI_advance_changesOnly _
  | rnd =>
    obtain rfl : t = _ := h
    exact s.drewRandom_setReg_advance_changesOnly _ _
  | drw =>
    obtain rfl : t = _ := h
    exact s.draw_advance_changesOnly _ _ _
  | ldVxK =>
    obtain rfl : t = _ := h
    exact s.drewKey_setReg_advance_changesOnly _ _
  | ldDtVx =>
    obtain rfl : t = _ := h
    exact s.setDt_advance_changesOnly _
  | ldStVx =>
    obtain rfl : t = _ := h
    exact s.setSt_advance_changesOnly _
  | ldBVx =>
    obtain ⟨m, _, _, rfl⟩ := h
    exact State.setMem_advance_changesOnly (fun b hb => absurd (.inr ⟨b, rfl⟩) hb) (.inl rfl)
  | ldMIVx x =>
    obtain ⟨m, _, _, rfl⟩ := h
    exact State.setMem_bumpI_advance_changesOnly (fun b hb => absurd (.inr ⟨b, rfl⟩) hb) x
      (.inl (.inl rfl)) (.inl (.inr rfl))
  | ldVxMI x =>
    obtain rfl : t = _ := h
    exact s.loadRegs_bumpI_advance_changesOnly x (by rw [List.length_map, List.length_range])

/-- An instruction changes only the parts it writes, or, when it raises, the status and the result. -/
theorem exec_changesOnly {i : Instr} {s t : State} (h : exec i s = .next t) :
    ChangesOnly (Instr.writes i ∪ Part.halting) s t := by
  rcases exec_next h with hc | ⟨e, _, rfl⟩
  · exact hc.changesOnly.mono Set.subset_union_left
  · exact (s.takeFatal_changesOnly e).mono Set.subset_union_right

/-- A part that an instruction changed is one that it writes, unless it is the status or the
result. -/
theorem mem_writes_of_changed {i : Instr} {s t : State} {p : Part} (h : exec i s = .next t)
    (hp : p ∉ Part.halting) (hne : ¬ p.Same s t) : p ∈ Instr.writes i := by
  by_contra hw
  exact hne (exec_changesOnly h p fun hmem => hmem.elim hw hp)

/-! ### The writers of each part -/

theorem Instr.reg_mem_writes {i : Instr} {r : RegIx} (h : Part.reg r ∈ Instr.writes i) :
    Instr.HasDestination i r ∨ (r = 15 ∧ Instr.SetsFlag i) := by
  cases i with
  | addVxVy x | sub x | shr x | subn x | shl x =>
    have hr : r = x ∨ r = 15 := by simpa [Instr.writes] using h
    rcases hr with rfl | rfl
    · exact .inl (by simp [Instr.HasDestination])
    · exact .inr ⟨rfl, by simp [Instr.SetsFlag]⟩
  | drw =>
    have hr : r = 15 := by simpa [Instr.writes, Part.pixels] using h
    exact .inr ⟨hr, by simp [Instr.SetsFlag]⟩
  | ldVxMI x =>
    have hr : r ≤ x := by simpa [Instr.writes, Part.regsUpTo] using h
    exact .inl (by simpa [Instr.HasDestination] using hr)
  | ldVxKk x | addVxKk x | ldVxVy x | orVxVy x | andVxVy x | xorVxVy x | rnd x | ldVxDt x | ldVxK x =>
    have hr : r = x := by simpa [Instr.writes] using h
    exact .inl (by simp [Instr.HasDestination, hr])
  | _ => simp [Instr.writes, Part.pixels, Part.memory] at h

theorem Instr.i_mem_writes {i : Instr} (h : Part.i ∈ Instr.writes i) :
    (∃ nnn, i = .ldINnn nnn) ∨
      ∃ x, i = .addIVx x ∨ i = .ldFVx x ∨ i = .ldMIVx x ∨ i = .ldVxMI x := by
  cases i with
  | ldINnn nnn => exact .inl ⟨nnn, rfl⟩
  | addIVx x => exact .inr ⟨x, .inl rfl⟩
  | ldFVx x => exact .inr ⟨x, .inr (.inl rfl)⟩
  | ldMIVx x => exact .inr ⟨x, .inr (.inr (.inl rfl))⟩
  | ldVxMI x => exact .inr ⟨x, .inr (.inr (.inr rfl))⟩
  | _ => simp [Instr.writes, Part.pixels, Part.memory] at h

theorem Instr.stack_mem_writes {i : Instr} (h : Part.stack ∈ Instr.writes i) :
    i = .ret ∨ ∃ nnn, i = .call nnn := by
  cases i with
  | ret => exact .inl rfl
  | call nnn => exact .inr ⟨nnn, rfl⟩
  | _ => simp [Instr.writes, Part.pixels, Part.memory, Part.regsUpTo] at h

theorem Instr.dt_mem_writes {i : Instr} (h : Part.dt ∈ Instr.writes i) : ∃ x, i = .ldDtVx x := by
  cases i with
  | ldDtVx x => exact ⟨x, rfl⟩
  | _ => simp [Instr.writes, Part.pixels, Part.memory, Part.regsUpTo] at h

theorem Instr.st_mem_writes {i : Instr} (h : Part.st ∈ Instr.writes i) : ∃ x, i = .ldStVx x := by
  cases i with
  | ldStVx x => exact ⟨x, rfl⟩
  | _ => simp [Instr.writes, Part.pixels, Part.memory, Part.regsUpTo] at h

theorem Instr.rngDraws_mem_writes {i : Instr} (h : Part.rngDraws ∈ Instr.writes i) :
    ∃ x kk, i = .rnd x kk := by
  cases i with
  | rnd x kk => exact ⟨x, kk, rfl⟩
  | _ => simp [Instr.writes, Part.pixels, Part.memory, Part.regsUpTo] at h

theorem Instr.keyDraws_mem_writes {i : Instr} (h : Part.keyDraws ∈ Instr.writes i) :
    ∃ x, i = .ldVxK x := by
  cases i with
  | ldVxK x => exact ⟨x, rfl⟩
  | _ => simp [Instr.writes, Part.pixels, Part.memory, Part.regsUpTo] at h

/-- No instruction writes the key latch, the status, `started` or the result when it completes. -/
theorem Instr.not_mem_writes (i : Instr) :
    Part.key ∉ Instr.writes i ∧ Part.status ∉ Instr.writes i ∧ Part.started ∉ Instr.writes i ∧
      Part.result ∉ Instr.writes i := by
  cases i <;> simp [Instr.writes, Part.pixels, Part.memory, Part.regsUpTo]

/-- Settles O33: by the registers among the parts an instruction writes. -/
theorem registerWriters : Obligations.RegisterWriters :=
  fun _ _ _ r h hne =>
    Instr.reg_mem_writes (mem_writes_of_changed h (p := .reg r) (by simp [Part.halting]) hne)

/-- Settles O34: by the instructions that have `I` among the parts they write. -/
theorem indexWriters : Obligations.IndexWriters :=
  fun _ _ _ h hne =>
    Instr.i_mem_writes (mem_writes_of_changed h (p := .i) (by simp [Part.halting]) hne)

/-- Settles O36: by the instructions that have the stack among the parts they write. -/
theorem stackWriters : Obligations.StackWriters :=
  fun _ _ _ h hne =>
    Instr.stack_mem_writes (mem_writes_of_changed h (p := .stack) (by simp [Part.halting]) hne)

/-- The instruction is one of the two that store to memory. -/
def Instr.WritesMemory (i : Instr) : Prop := ∃ x, i = .ldBVx x ∨ i = .ldMIVx x

/-- An instruction that completes keeps the memory, in its form too, unless it is Fx33 or Fx55. -/
theorem Completes.mem_eq {i : Instr} {s t : State} (hi : ¬ Instr.WritesMemory i)
    (h : Completes i s t) : t.mem = s.mem := by
  cases i with
  | ldBVx x => exact absurd ⟨x, .inl rfl⟩ hi
  | ldMIVx x => exact absurd ⟨x, .inr rfl⟩ hi
  | seVxKk | sneVxKk | seVxVy | sneVxVy | skp | sknp =>
    obtain rfl : t = _ := h
    exact s.skipIf_mem _
  | ldVxK =>
    obtain rfl : t = _ := h
    exact s.drewKey_mem
  | call =>
    obtain ⟨_, rfl⟩ := h
    rfl
  | ret =>
    obtain ⟨_, _, _, rfl⟩ := h
    rfl
  | _ =>
    obtain rfl : t = _ := h
    rfl

/-- Settles O35: an instruction that completes keeps the memory unless it stores, and a fatal error
keeps it. -/
theorem memoryWriters : Obligations.MemoryWriters := by
  intro i s t h hne
  by_contra hi
  rcases exec_next h with hc | ⟨e, _, rfl⟩
  · exact hne (hc.mem_eq hi)
  · exact hne (s.takeFatal_mem e)

/-- Settles O39: the counts are among the parts of Cxkk and Fx0A only, and each of the two counts what
it draws. -/
theorem freeDrawsAreCounted : Obligations.FreeDrawsAreCounted := by
  intro i s t h
  refine ⟨?_, fun hi => ?_, fun hne => ?_⟩
  · rintro ⟨x, kk, rfl⟩
    cases (exec_rnd x kk s).symm.trans h
    rfl
  · by_contra hne
    obtain ⟨x, kk, rfl⟩ := Instr.rngDraws_mem_writes
      (mem_writes_of_changed h (p := .rngDraws) (by simp [Part.halting]) hne)
    exact hi x kk rfl
  · obtain ⟨x, rfl⟩ := Instr.keyDraws_mem_writes
      (mem_writes_of_changed h (p := .keyDraws) (by simp [Part.halting]) hne)
    cases (exec_ldVxK x s).symm.trans h
    refine ⟨?_, x, rfl⟩
    cases hk : s.key with
    | none => rfl
    | some k =>
      refine absurd ?_ hne
      rw [State.advance_keyDraws, State.setReg_keyDraws, State.drewKey_keyDraws, hk]
      rfl

/-! ### PC and the stack after an instruction -/

/-- The instruction is a conditional skip (41_conditional_skip.md). -/
def Instr.Skips (i : Instr) : Prop :=
  ∃ x, i = .skp x ∨ i = .sknp x ∨ (∃ kk, i = .seVxKk x kk ∨ i = .sneVxKk x kk) ∨
    ∃ y, i = .seVxVy x y ∨ i = .sneVxVy x y

theorem State.skipIf_pc_cases (s : State) (c : Bool) :
    (s.skipIf c).pc = s.pc + 2 ∨ (s.skipIf c).pc = s.pc + 4 := by
  cases c with
  | true => exact .inr rfl
  | false => exact .inl rfl

/-- Where an instruction that completes leaves PC (30_encoding.md R89): behind itself, behind the next
instruction, at the popped entry, at its target, or at its target plus V[0]. -/
theorem Completes.pc_cases {i : Instr} {s t : State} (h : Completes i s t) :
    t.pc = s.pc + 2 ∨ (t.pc = s.pc + 4 ∧ Instr.Skips i) ∨ (i = .ret ∧ t.pc ∈ s.stack) ∨
      (∃ nnn, (i = .jp nnn ∨ i = .call nnn) ∧ t.pc = nnn) ∨
      (∃ nnn, i = .jpV0 nnn ∧ t.pc = s.jumpOffset nnn) := by
  cases i with
  | ret =>
    obtain ⟨rest, top, hst, rfl⟩ := h
    refine .inr (.inr (.inl ⟨rfl, ?_⟩))
    rw [hst]
    exact List.mem_append_right rest (List.mem_singleton.mpr rfl)
  | jp nnn =>
    obtain rfl : t = _ := h
    exact .inr (.inr (.inr (.inl ⟨nnn, .inl rfl, rfl⟩)))
  | call nnn =>
    obtain ⟨_, rfl⟩ := h
    exact .inr (.inr (.inr (.inl ⟨nnn, .inr rfl, rfl⟩)))
  | jpV0 nnn =>
    obtain rfl : t = _ := h
    exact .inr (.inr (.inr (.inr ⟨nnn, rfl, rfl⟩)))
  | seVxKk | sneVxKk | seVxVy | sneVxVy | skp | sknp =>
    obtain rfl : t = _ := h
    exact (s.skipIf_pc_cases _).imp_right fun hpc => .inl ⟨hpc, by simp [Instr.Skips]⟩
  | ldVxK =>
    obtain rfl : t = _ := h
    exact .inl (congrArg (· + 2) s.drewKey_pc)
  | ldBVx | ldMIVx =>
    obtain ⟨_, _, _, rfl⟩ := h
    exact .inl rfl
  | _ =>
    obtain rfl : t = _ := h
    exact .inl rfl

/-- What an instruction that completes leaves on the stack: what was there, that without its top, or
that with the return address. -/
theorem Completes.stack_cases {i : Instr} {s t : State} (h : Completes i s t) :
    t.stack = s.stack ∨ (∃ top, s.stack = t.stack ++ [top]) ∨
      (s.stack.length < 16 ∧ t.stack = s.stack ++ [s.pc + 2]) := by
  by_cases hw : Part.stack ∈ Instr.writes i
  · rcases Instr.stack_mem_writes hw with rfl | ⟨nnn, rfl⟩
    · obtain ⟨rest, top, hst, rfl⟩ := h
      exact .inr (.inl ⟨top, hst⟩)
    · obtain ⟨hroom, rfl⟩ := h
      exact .inr (.inr ⟨hroom, rfl⟩)
  · exact .inl (h.changesOnly .stack hw)

theorem Completes.status_eq {i : Instr} {s t : State} (h : Completes i s t) :
    t.status = s.status := by
  obtain ⟨_, hstatus, _, _⟩ := Instr.not_mem_writes i
  exact h.changesOnly .status hstatus

theorem Completes.result_eq {i : Instr} {s t : State} (h : Completes i s t) :
    t.result = s.result := by
  obtain ⟨_, _, _, hresult⟩ := Instr.not_mem_writes i
  exact h.changesOnly .result hresult

/-- Settles O40: by where a completed instruction leaves PC; a fatal error leaves it. -/
theorem pcAfterInstruction : Obligations.PcAfterInstruction := by
  intro i s t hrun h
  rcases exec_next h with hc | ⟨e, _, rfl⟩
  · refine ⟨fun hhalt => absurd (hc.status_eq.trans hrun) hhalt, fun _ hne => ?_⟩
    rcases hc.pc_cases with hpc | hskip | ⟨hret, _⟩ | ⟨nnn, hjump, _⟩ | ⟨nnn, hjump, _⟩
    · exact absurd hpc hne
    · exact .inr (.inr hskip)
    · exact .inl hret
    · exact .inr (.inl ⟨nnn, hjump.imp_right .inr⟩)
    · exact .inr (.inl ⟨nnn, .inr (.inl hjump)⟩)
  · exact ⟨fun _ => s.takeFatal_pc e, fun hstat => nomatch hstat⟩

end Sys2Proof.Machine
end

section
/-! PROOFS. What no instruction reads (10_state.md R36, R38): an instruction run with another sound
timer and, unless it reads the key, another key, answers the same with them. -/

namespace Sys2Proof.Machine

/-- The instruction reads the key latch (R43). -/
def Instr.ReadsKey (i : Instr) : Prop := ∃ x, i = .skp x ∨ i = .sknp x ∨ i = .ldVxK x

/-- The state with another sound timer and another key. -/
def State.setStKey (s : State) (b : Byte) (k : Option KeyIx) : State := (s.setSt b).setKey k

theorem State.skipIf_setStKey (s : State) (c : Bool) (b : Byte) (k : Option KeyIx) :
    (s.setStKey b k).skipIf c = (s.skipIf c).setStKey b k := by
  cases c <;> rfl

theorem State.drewKey_setStKey (s : State) (b : Byte) :
    (s.setStKey b s.key).drewKey = s.drewKey.setStKey b s.key := by
  obtain ⟨v, i, pc, stack, dt, st, fb, key⟩ := s
  cases key <;> rfl

/-- A store at `I` answers the memory that its run of writes answers. -/
theorem State.writeAtI_eq_ok_iff {s : State} {bs : List Byte} {m : Memory} :
    s.writeAtI bs = .ok (s.setMem m) ↔ writeBytes s.mem (s.effAddr 0) bs = .ok m := by
  unfold State.writeAtI
  cases writeBytes s.mem (s.effAddr 0) bs with
  | error a => exact ⟨nofun, nofun⟩
  | ok m' =>
    refine ⟨fun h => ?_, fun h => ?_⟩
    · exact congrArg Except.ok (congrArg State.mem (Except.ok.inj h))
    · exact congrArg Except.ok (congrArg s.setMem (Except.ok.inj h))

/-- A store at `I` depends on the memory and on `I` only. -/
theorem State.writeAtI_setStKey {s : State} {bs : List Byte} {m : Memory}
    (h : s.writeAtI bs = .ok (s.setMem m)) (b : Byte) (k : Option KeyIx) :
    (s.setStKey b k).writeAtI bs = .ok ((s.setStKey b k).setMem m) := by
  have hw : writeBytes s.mem (s.effAddr 0) bs = .ok m := State.writeAtI_eq_ok_iff.mp h
  exact State.writeAtI_eq_ok_iff.mpr hw

/-- An instruction that neither reads the key nor writes the sound timer reads neither. -/
theorem exec_setStKey {i : Instr} {s t : State} (hk : ¬ Instr.ReadsKey i) (hst : ∀ x, i ≠ .ldStVx x)
    (b : Byte) (k : Option KeyIx) (h : exec i s = .next t) :
    exec i (s.setStKey b k) = .next (t.setStKey b k) := by
  cases i with
  | skp x => exact absurd ⟨x, .inl rfl⟩ hk
  | sknp x => exact absurd ⟨x, .inr (.inl rfl)⟩ hk
  | ldVxK x => exact absurd ⟨x, .inr (.inr rfl)⟩ hk
  | ldStVx x => exact absurd rfl (hst x)
  | seVxKk | sneVxKk | seVxVy | sneVxVy =>
    cases h
    exact congrArg Host.Outcome.next (s.skipIf_setStKey _ b k)
  | ret =>
    rcases exec_ret_cases s with ⟨rest, top, hstack, he⟩ | ⟨hstack, he⟩ <;> cases he.symm.trans h
    · exact exec_ret_top (s := s.setStKey b k) hstack
    · exact exec_ret_empty (s := s.setStKey b k) hstack
  | call nnn =>
    rcases exec_call_cases nnn s with ⟨hstack, he⟩ | ⟨hstack, he⟩ <;> cases he.symm.trans h
    · exact exec_call_room (s := s.setStKey b k) nnn hstack
    · exact exec_call_full (s := s.setStKey b k) nnn hstack
  | ldBVx x =>
    rcases exec_ldBVx_cases x s with ⟨_, m, hw, _, he⟩ | ⟨hout, he⟩ <;> cases he.symm.trans h
    · exact exec_ldBVx_stored (State.writeAtI_setStKey hw b k)
    · exact exec_outOfRange (s := s.setStKey b k) (.inr (.inl ⟨⟨x, rfl⟩, rfl⟩)) (by omega) hout
  | ldMIVx x =>
    rcases exec_ldMIVx_cases x s with ⟨_, m, hw, _, he⟩ | ⟨hout, he⟩ <;> cases he.symm.trans h
    · exact exec_ldMIVx_stored (State.writeAtI_setStKey hw b k)
    · exact exec_outOfRange (s := s.setStKey b k) (.inr (.inr ⟨x, .inl rfl, rfl⟩)) (by omega) hout
  | ldVxMI x =>
    rcases exec_ldVxMI_cases x s with ⟨hin, he⟩ | ⟨hout, he⟩ <;> cases he.symm.trans h
    · exact exec_ldVxMI_inRange (s := s.setStKey b k) hin
    · exact exec_outOfRange (s := s.setStKey b k) (.inr (.inr ⟨x, .inr rfl, rfl⟩)) (by omega) hout
  | drw x y n =>
    rcases exec_drw_cases x y n s with ⟨hin, he⟩ | ⟨hn, hout, he⟩ <;> cases he.symm.trans h
    · exact exec_drw_inRange (s := s.setStKey b k) hin
    · exact exec_outOfRange (s := s.setStKey b k) (.inl ⟨x, y, rfl⟩) hn hout
  | _ =>
    cases h
    rfl

/-- With the key as it is, an instruction that does not write the sound timer does not read it. -/
theorem exec_setSt {i : Instr} {s t : State} (hst : ∀ x, i ≠ .ldStVx x) (b : Byte)
    (h : exec i s = .next t) : exec i (s.setStKey b s.key) = .next (t.setStKey b s.key) := by
  by_cases hk : Instr.ReadsKey i
  · obtain ⟨x, rfl | rfl | rfl⟩ := hk
    · cases h
      exact congrArg Host.Outcome.next (s.skipIf_setStKey _ b s.key)
    · cases h
      exact congrArg Host.Outcome.next (s.skipIf_setStKey _ b s.key)
    · cases h
      exact congrArg (fun u => Host.Outcome.next (u.setReg x s.keyByte).advance)
        (s.drewKey_setStKey b)
  · exact exec_setStKey hk hst b s.key h

theorem exec_key_eq {i : Instr} {s t : State} (h : exec i s = .next t) : t.key = s.key := by
  obtain ⟨hkey, _, _, _⟩ := Instr.not_mem_writes i
  exact exec_changesOnly h .key fun hp => hp.elim hkey (by simp [Part.halting])

theorem exec_st_eq {i : Instr} {s t : State} (hst : ∀ x, i ≠ .ldStVx x) (h : exec i s = .next t) :
    t.st = s.st := by
  by_contra hne
  obtain ⟨x, hx⟩ := Instr.st_mem_writes
    (mem_writes_of_changed h (p := .st) (by simp [Part.halting]) hne)
  exact hst x hx

/-- Settles O31: Fx18 overwrites the sound timer, and every other instruction answers the same with
another one. -/
theorem soundTimerIsNeverRead : Obligations.SoundTimerIsNeverRead := by
  intro i s t b h
  by_cases hst : ∃ x, i = .ldStVx x
  · obtain ⟨x, rfl⟩ := hst
    cases h
    exact ⟨_, rfl, rfl⟩
  · refine ⟨_, exec_setSt (fun x hx => hst ⟨x, hx⟩) b h, ?_⟩
    show { t with key := s.key } = t
    rw [← exec_key_eq h]

/-- Settles O32: Fx18 reads a register only, and every other instruction but the three answers the
same with another key. -/
theorem onlyKeyInstructionsReadKey : Obligations.OnlyKeyInstructionsReadKey := by
  intro i s t k hno h
  by_cases hst : ∃ x, i = .ldStVx x
  · obtain ⟨x, rfl⟩ := hst
    cases h
    rfl
  · have hne : ∀ x, i ≠ .ldStVx x := fun x hx => hst ⟨x, hx⟩
    have hk : ¬ Instr.ReadsKey i := by
      rintro ⟨x, hx⟩
      obtain ⟨h1, h2, h3⟩ := hno x
      exact hx.elim h1 fun hx' => hx'.elim h2 h3
    have ht : t.setStKey s.st k = { t with key := k } := by
      rw [← exec_st_eq hne h]
      rfl
    exact (exec_setStKey hk hne s.st k h).trans (congrArg Host.Outcome.next ht)

end Sys2Proof.Machine
end

section
/-! PROOFS. The step (30_encoding.md R85, R88, 60_exceptions.md R246, R247, R252, R254): what a step is
in each of its cases, what it keeps, and the statements about it. -/

namespace Sys2Proof.Machine

/-! ### The step in each case -/

theorem FetchesWord.running {s : State} {w : Word} (hf : FetchesWord s w) : s.status = .running :=
  hf.1

theorem FetchesWord.inRange {s : State} {w : Word} (hf : FetchesWord s w) : s.pc.toNat + 1 < 4096 :=
  hf.2.1

/-- A step that fetches an unmapped word passes over it after the tick (R85). -/
theorem FetchesWord.step_unknown {s : State} {w : Word} (hf : FetchesWord s w)
    (hd : decode w = .unknown w) : step s = .next (s.beginStep.warnUnknown w) := by
  rcases step_cases s with ⟨e, hhalt, _⟩ | ⟨_, hout, _⟩ | ⟨w', i, hf', hd', _⟩ | ⟨w', hf', _, hs⟩
  · exact absurd (hf.running.symm.trans hhalt) nofun
  · exact absurd hf.inRange (Nat.not_lt.mpr hout)
  · rw [hf.unique hf', hd'] at hd
    exact absurd hd nofun
  · rw [hf.unique hf', hs]

/-- A step of a running machine whose fetch is out of range takes MemoryFault after the tick (R63). -/
theorem step_fetch_outOfRange {s : State} (hrun : s.status = .running) (h : 4096 ≤ s.pc.toNat + 1) :
    step s = .next (s.beginStep.takeFatal (.memoryFault s.pc s.pc.toNat)) := by
  rw [step_running hrun, runCycle, State.fetch_error (s := s.beginStep) h]
  rfl

/-! ### What a step keeps -/

theorem State.beginStep_changesOnly (s : State) :
    ChangesOnly {.started, .dt, .st, .result} s s.beginStep := by
  intro p hp
  cases p with
  | started | dt | st | result => exact absurd (by simp) hp
  | _ => rfl

theorem State.warnUnknown_changesOnly (s : State) (w : Word) :
    ChangesOnly {.result, .pc} s (s.warnUnknown w) := by
  intro p hp
  cases p with
  | result => exact absurd (.inl rfl) hp
  | pc => exact absurd (.inr rfl) hp
  | _ => rfl

/-- After the tick, a step of a running machine changes only PC, the status, the result and what the
instruction it fetched writes. -/
theorem step_keeps {s t : State} {p : Part} (hrun : s.status = .running) (h : step s = .next t)
    (hp : p ∉ ({.pc, .status, .result} : Set Part))
    (hw : ∀ w i, FetchesWord s w → decode w = .insn i → p ∉ Instr.writes i) :
    p.Same s.beginStep t := by
  have hhalting : p ∉ Part.halting := fun hmem => hp (.inr hmem)
  rcases step_next h with ⟨e, hhalt, _⟩ | ⟨_, _, rfl⟩ | ⟨w, i, hf, hd, hc⟩ | ⟨_, _, e, _, _, _, rfl⟩ |
    ⟨w, _, _, rfl⟩
  · exact absurd (hrun.symm.trans hhalt) nofun
  · exact s.beginStep.takeFatal_changesOnly _ p hhalting
  · exact hc.changesOnly p (hw w i hf hd)
  · exact s.beginStep.takeFatal_changesOnly e p hhalting
  · refine s.beginStep.warnUnknown_changesOnly w p fun hmem => ?_
    rcases hmem with hres | hpc
    · exact hp (.inr (.inr hres))
    · exact hp (.inl hpc)

/-- Settles O30: the tick comes first, and only Fx15 writes DT and only Fx18 writes ST after it. -/
theorem everyStepTicksTimers : Obligations.EveryStepTicksTimers := by
  refine ⟨fun s t hrun h => ⟨fun hno => ?_, fun hno => ?_⟩, fun s t e hhalt h => ?_⟩
  · have hdt : t.dt = timerTick s.dt := by
      refine step_keeps (p := .dt) hrun h (by simp) fun w i hf hd hmem => ?_
      obtain ⟨x, rfl⟩ := Instr.dt_mem_writes hmem
      exact hno w x hf hd
    rw [hdt, timerTick_toNat]
  · have hst : t.st = timerTick s.st := by
      refine step_keeps (p := .st) hrun h (by simp) fun w i hf hd hmem => ?_
      obtain ⟨x, rfl⟩ := Instr.st_mem_writes hmem
      exact hno w x hf hd
    rw [hst, timerTick_toNat]
  · cases (step_halted hhalt).symm.trans h
    exact ⟨rfl, rfl⟩

/-- A step leaves the key latch. -/
theorem step_key_eq {s t : State} (h : step s = .next t) : t.key = s.key := by
  cases hs : s.status with
  | halted e =>
    cases (step_halted hs).symm.trans h
    rfl
  | running =>
    refine step_keeps (p := .key) hs h (by simp) fun _ i _ _ => ?_
    obtain ⟨hkey, _, _, _⟩ := Instr.not_mem_writes i
    exact hkey

theorem State.setKey_changesOnly (s : State) (k : Option KeyIx) :
    ChangesOnly {.key} s (s.setKey k) := by
  intro p hp
  cases p with
  | key => exact absurd rfl hp
  | _ => rfl

/-- Settles O38: by what a step keeps and what `set_key` answers. -/
theorem onlyHostWritesKey : Obligations.OnlyHostWritesKey :=
  ⟨fun _ _ => step_key_eq, fun s => ⟨_, hostSetKey_none s, rfl, s.setKey_changesOnly _⟩,
    fun s _ hk => ⟨_, hostSetKey_key s hk, rfl, s.setKey_changesOnly _⟩⟩

/-! ### The statements about one step -/

/-- Settles O41: by the step of a mapped word, from the state after the tick. -/
theorem stepRunsDecodedInstruction : Obligations.StepRunsDecodedInstruction :=
  fun _ _ _ hf hd => hf.step_eq hd

/-- Settles O42: by the step of an unmapped word and its frame. -/
theorem unknownWordIsNoOp : Obligations.UnknownWordIsNoOp := by
  intro s w hf hd
  have hframe : ChangesOnly {.result, .pc, .started, .dt, .st} s (s.beginStep.warnUnknown w) :=
    (s.beginStep_changesOnly.mono (by simp [Set.insert_subset_iff])).trans
      ((s.beginStep.warnUnknown_changesOnly w).mono (by simp [Set.insert_subset_iff]))
  exact ⟨_, hf.step_unknown hd, rfl, rfl, hf.running, rfl, timerTick_toNat s.dt,
    timerTick_toNat s.st, hframe⟩

/-- Settles O43: by the step of a fetch out of range and its frame. -/
theorem fetchOutOfRangeHalts : Obligations.FetchOutOfRangeHalts := by
  intro s hrun hout
  have hframe : ChangesOnly {.status, .result, .started, .dt, .st} s
      (s.beginStep.takeFatal (.memoryFault s.pc s.pc.toNat)) :=
    (s.beginStep_changesOnly.mono (by simp [Set.insert_subset_iff])).trans
      ((s.beginStep.takeFatal_changesOnly _).mono (by simp [Part.halting, Set.insert_subset_iff]))
  exact ⟨_, step_fetch_outOfRange hrun hout, rfl, rfl, rfl, timerTick_toNat s.dt, timerTick_toNat s.st,
    hframe⟩

/-- Settles O45: each case of a step answers a next state, an instruction because its meaning does. -/
theorem stepAlwaysAnswersNext : Obligations.StepAlwaysAnswersNext := by
  intro s
  rcases step_cases s with ⟨e, _, hs⟩ | ⟨_, _, hs⟩ | ⟨w, i, _, _, hs⟩ | ⟨w, _, _, hs⟩
  · exact ⟨_, hs⟩
  · exact ⟨_, hs⟩
  · obtain ⟨t, ht, _⟩ := exec_effect i s.beginStep
    exact ⟨t, hs.trans ht⟩
  · exact ⟨_, hs⟩

/-- Settles O46: each case of a step leaves a result that agrees with its status. -/
theorem stepResultMatchesStatus : Obligations.StepResultMatchesStatus := by
  intro s t h
  rcases step_next h with ⟨e, hhalt, rfl⟩ | ⟨_, _, rfl⟩ | ⟨w, i, hf, _, hc⟩ | ⟨_, _, e, _, _, _, rfl⟩ |
    ⟨w, hf, hd, rfl⟩
  · exact .inr (.inr ⟨e, rfl, hhalt⟩)
  · exact .inr (.inr ⟨_, rfl, rfl⟩)
  · exact .inl ⟨hc.result_eq, hc.status_eq.trans hf.running⟩
  · exact .inr (.inr ⟨e, rfl, rfl⟩)
  · exact .inr (.inl ⟨w, hf, hd, rfl, hf.running⟩)

end Sys2Proof.Machine
end

section
/-! PROOFS. Runs of steps (60_exceptions.md R247, 70_reset_and_hazards.md R284 to R290): a halted
machine, an idle end, and the machine with nothing loaded. -/

namespace Sys2Proof.Machine

/-- A run of one step more is the run and then a step. -/
theorem run_snoc {s t : State} {k : Nat} (h : core.run k s = .next t) :
    core.run (k + 1) s = step t := by
  induction k generalizing s with
  | zero =>
    obtain rfl : s = t := Host.Outcome.next.inj h
    obtain ⟨u, hu⟩ := stepAlwaysAnswersNext s
    exact (run_succ hu 0).trans ((run_zero u).trans hu.symm)
  | succ k ih =>
    obtain ⟨u, hu⟩ := stepAlwaysAnswersNext s
    rw [run_succ hu] at h ⊢
    exact ih h

/-- Settles O44: by induction on the number of steps, each of which answers the same error. -/
theorem haltedMachineIsStuck : Obligations.HaltedMachineIsStuck := by
  intro k s e hhalt
  induction k with
  | zero => exact (run_succ (step_halted hhalt) 0).trans (run_zero _)
  | succ k ih => exact (run_snoc ih).trans (step_halted (s := s.haltedStep e) hhalt)

/-! ### The idle end -/

/-- The word of an idle end is the jump to its own address. -/
theorem decode_jump_to_self {w pc : Word} (hpc : pc.toNat + 1 < 4096)
    (hw : w.toNat = 0x1000 + pc.toNat) : decode w = .insn (.jp pc) := by
  have hrow : w &&& 0xF000 = 0x1000 :=
    Laws.EncodeInRow.in_row_F000 (by rw [show (0x1000 : Word).toNat = 0x1000 from rfl]; omega)
  have hnnn : fieldNnn w = pc := BitVec.eq_of_toNat_eq (by rw [fieldNnn_toNat]; omega)
  exact hnnn ▸ decodesRow_jp w hrow

/-- A step from an idle end is the tick alone. -/
theorem IdleEnd.step_eq {s : State} (h : IdleEnd s) : step s = .next s.beginStep := by
  obtain ⟨w, hf, hw⟩ := h
  exact (hf.step_eq (decode_jump_to_self hf.inRange hw)).trans (exec_jp s.pc s.beginStep)

theorem IdleEnd.beginStep {s : State} (h : IdleEnd s) : IdleEnd s.beginStep := h

/-- Settles O50: by induction on the number of steps, each of which is a tick at the same idle end. -/
theorem idleEndIsStable : Obligations.IdleEndIsStable := by
  intro k s hidle
  induction k with
  | zero => exact ⟨s, run_zero s, hidle, rfl, rfl, fun p _ => by cases p <;> rfl⟩
  | succ k ih =>
    obtain ⟨t, hrun, ht, hdt, hst, hframe⟩ := ih
    refine ⟨t.beginStep, (run_snoc hrun).trans ht.step_eq, ht.beginStep, ?_, ?_,
      hframe.trans (t.beginStep_changesOnly.mono (by simp [Set.insert_subset_iff]))⟩
    · rw [State.beginStep_dt, timerTick_toNat, hdt, Nat.sub_sub]
    · rw [State.beginStep_st, timerTick_toNat, hst, Nat.sub_sub]

/-! ### The machine with nothing loaded -/

/-- Above the font the constructed memory is zero (20_memory.md R68). -/
theorem Memory.background_above_font {a : Nat} (h : 0xA0 ≤ a) : Memory.background a = 0 := by
  rw [Memory.background_eq, if_neg (by omega)]

/-- The machine is as constructed but for PC, `started` and the result. -/
def UnloadedAt (s : State) (k : Nat) : Prop :=
  s.pc.toNat = 0x200 + 2 * k ∧
    (0 < k → s.result = some (.warn (BitVec.ofNat 16 (0x200 + 2 * k - 2)) 0)) ∧
    ChangesOnly {.pc, .started, .result} State.reset s

/-- With nothing loaded a machine below the end of memory fetches the word zero. -/
theorem UnloadedAt.fetches {s : State} {k : Nat} (h : UnloadedAt s k) (hk : k < 1792) :
    FetchesWord s 0 := by
  obtain ⟨hpc, _, hframe⟩ := h
  have hrun : s.status = .running := hframe .status (by simp)
  have hzero : ∀ a, 0xA0 ≤ a → s.mem.get a = 0 := fun a ha =>
    (hframe (.byte a) (by simp)).trans (Memory.background_above_font ha)
  refine ⟨hrun, by omega, ?_⟩
  rw [hzero _ (by omega), hzero _ (by omega)]
  rfl

/-- A step with nothing loaded warns of the word zero and goes on to the next. -/
theorem UnloadedAt.step {s : State} {k : Nat} (h : UnloadedAt s k) (hk : k < 1792) :
    ∃ t, Machine.step s = .next t ∧ UnloadedAt t (k + 1) := by
  have hf := h.fetches hk
  obtain ⟨hpc, _, hframe⟩ := h
  have hdt : s.dt = 0 := hframe .dt (by simp)
  have hst : s.st = 0 := hframe .st (by simp)
  refine ⟨_, hf.step_unknown (by decide), ?_, fun _ => ?_, fun p hp => ?_⟩
  · rw [State.warnUnknown_pc, State.beginStep_pc, BitVec.toNat_add, hpc]
    simp
    omega
  · rw [State.warnUnknown_result, State.beginStep_pc]
    congr 2
    apply BitVec.eq_of_toNat_eq
    rw [hpc, BitVec.toNat_ofNat]
    omega
  · cases p with
    | dt => exact (congrArg timerTick hdt).trans rfl
    | st => exact (congrArg timerTick hst).trans rfl
    | pc | started | result => exact absurd (by simp) hp
    | _ => exact hframe _ hp

/-- With nothing loaded each of the first 1792 steps goes on to the next word. -/
theorem run_unloaded {k : Nat} (hk : k ≤ 1792) :
    ∃ t : State, core.run k State.reset = .next t ∧ UnloadedAt t k := by
  induction k with
  | zero => exact ⟨State.reset, run_zero _, rfl, nofun, fun p _ => by cases p <;> rfl⟩
  | succ k ih =>
    obtain ⟨t, hrun, ht⟩ := ih (by omega)
    obtain ⟨u, hstep, hu⟩ := ht.step (by omega)
    exact ⟨u, (run_snoc hrun).trans hstep, hu⟩

/-- Settles O51: by induction up to the last word; the fetch after it is out of range. -/
theorem unloadedMachineRunsOff : Obligations.UnloadedMachineRunsOff := by
  refine ⟨fun k hk => run_unloaded hk, ?_⟩
  obtain ⟨t, hrun, hpc, _, hframe⟩ := run_unloaded (Nat.le_refl 1792)
  have hrunning : t.status = .running := hframe .status (by simp)
  have hend : t.pc = 0x1000 := BitVec.eq_of_toNat_eq hpc
  refine ⟨_, (run_snoc hrun).trans (step_fetch_outOfRange hrunning (by omega)), ?_⟩
  rw [State.takeFatal_status, hend]
  rfl

end Sys2Proof.Machine
end

section
/-! PROOFS. Construction and load (70_reset_and_hazards.md R280 to R284). -/

namespace Sys2Proof.Machine

/-- Settles O47: the constructed memory lists no cell, so every address reads as its background. -/
theorem resetMemoryAndPc : Obligations.ResetMemoryAndPc := by
  refine ⟨rfl, rfl, rfl, rfl, rfl, rfl, fun a => ?_⟩
  have hrange : (0x50 ≤ a ∧ a < 0xA0) ↔ (0x050 ≤ a ∧ a ≤ 0x09F) :=
    and_congr_right fun _ => Nat.lt_succ_iff
  exact (Memory.background_eq a).trans (if_congr hrange rfl rfl)

/-- Settles O48: the constructed register file and framebuffer hold one value everywhere. -/
theorem resetRegistersAreZero : Obligations.ResetRegistersAreZero :=
  ⟨fun x => Vector.getElem_replicate x.isLt, rfl, rfl, rfl, Framebuffer.clear_pixel, rfl⟩

/-- Settles O49: by the three answers of `load`, and what bytes put at rising addresses leave. -/
theorem loadCopiesImage : Obligations.LoadCopiesImage := by
  refine ⟨fun s bytes hm hs hlen => ?_, fun _ _ => hostLoad_tooLong, fun _ _ => hostLoad_started⟩
  obtain ⟨_, hget⟩ := Memory.setAll_spec (a := 0x200) (bs := bytes) hm (by omega)
  refine ⟨_, hostLoad_ok hs hlen, fun j hj => ?_, State.setMem_changesOnly fun b hb => ?_⟩
  · rw [State.setMem_mem, hget, if_pos ⟨Nat.le_add_right _ _, by omega⟩, Nat.add_sub_cancel_left]
  · exact (hget b).trans (if_neg (not_inRun_of_not_mem_bytes hb))

end Sys2Proof.Machine
end

section
/-! PROOFS. The invariants: each holds at construction, is kept by the tick, by an instruction that
completes, by a fatal error and by an unmapped word, and so by every step and every host call. -/

namespace Sys2Proof.Machine

/-! ### The invariant of memory, stack and status -/

/-- A running machine meets the invariant when its memory and its stack do. -/
theorem Inv.of_running {s : State} (hm : s.mem.wf = true) (hst : s.stack.length ≤ 16)
    (hrun : s.status = .running) : Inv s where
  memory := hm
  stackBound := hst
  haltedStarted _ hhalt := absurd (hrun.symm.trans hhalt) nofun
  haltedResult _ hhalt := absurd (hrun.symm.trans hhalt) nofun

/-- A started machine that takes a fatal error keeps the invariant. -/
theorem Inv.takeFatal {s : State} (hs : Inv s) (hstarted : s.started = true) (e : Fault) :
    Inv (s.takeFatal e) where
  memory := hs.memory
  stackBound := hs.stackBound
  haltedStarted _ _ := hstarted
  haltedResult e' he := by
    obtain rfl : e = e' := RunStatus.halted.inj he
    rfl

theorem Inv.haltedStep {s : State} {e : Fault} (hs : Inv s) (hhalt : s.status = .halted e) :
    Inv (s.haltedStep e) where
  memory := hs.memory
  stackBound := hs.stackBound
  haltedStarted := hs.haltedStarted
  haltedResult e' he := by
    obtain rfl : e = e' := RunStatus.halted.inj (hhalt.symm.trans he)
    rfl

/-- An instruction that completes keeps a canonical memory canonical. -/
theorem Completes.mem_wf {i : Instr} {s t : State} (h : Completes i s t) (hm : s.mem.wf = true) :
    t.mem.wf = true := by
  by_cases hi : Instr.WritesMemory i
  · obtain ⟨x, rfl | rfl⟩ := hi
    · obtain ⟨m, _, hwf, rfl⟩ := h
      exact hwf hm
    · obtain ⟨m, _, hwf, rfl⟩ := h
      exact hwf hm
  · rw [h.mem_eq hi]
    exact hm

/-- An instruction that completes keeps the stack within its capacity. -/
theorem Completes.stack_bound {i : Instr} {s t : State} (h : Completes i s t)
    (hst : s.stack.length ≤ 16) : t.stack.length ≤ 16 := by
  rcases h.stack_cases with heq | ⟨top, hpop⟩ | ⟨hroom, hpush⟩
  · rw [heq]
    exact hst
  · have hlen := congrArg List.length hpop
    rw [List.length_append, List.length_singleton] at hlen
    omega
  · rw [hpush, List.length_append, List.length_singleton]
    omega

theorem Completes.inv {i : Instr} {s t : State} (h : Completes i s t) (hs : Inv s)
    (hrun : s.status = .running) : Inv t :=
  .of_running (h.mem_wf hs.memory) (h.stack_bound hs.stackBound) (h.status_eq.trans hrun)

/-- Settles O53: by the cases of a step, each of which keeps the invariant. -/
theorem stepKeepsInv : Obligations.StepKeepsInv := by
  intro s t hs h
  have htick : s.status = .running → Inv s.beginStep :=
    Inv.of_running (s := s.beginStep) hs.memory hs.stackBound
  rcases step_next h with ⟨e, hhalt, rfl⟩ | ⟨hrun, _, rfl⟩ | ⟨w, i, hf, _, hc⟩ |
    ⟨w, i, e, hf, _, _, rfl⟩ | ⟨w, hf, _, rfl⟩
  · exact hs.haltedStep hhalt
  · exact (htick hrun).takeFatal rfl _
  · exact hc.inv (htick hf.running) hf.running
  · exact (htick hf.running).takeFatal rfl e
  · exact .of_running (s := s.beginStep.warnUnknown w) hs.memory hs.stackBound hf.running

theorem inv_reset : Inv State.reset := .of_running rfl (Nat.zero_le 16) rfl

/-- A load that the machine accepts keeps the invariant: the image stays inside memory. -/
theorem Inv.hostLoad {s t : State} {bytes : List Byte} {r : LoadResult} (hs : Inv s)
    (h : Machine.hostLoad bytes s = .next (r, t)) : Inv t := by
  cases hst : s.started with
  | true => exact absurd ((hostLoad_started hst).symm.trans h) nofun
  | false =>
    by_cases hlen : bytes.length ≤ 3584
    · cases (hostLoad_ok hst hlen).symm.trans h
      obtain ⟨hwf, _⟩ := Memory.setAll_spec (a := 0x200) (bs := bytes) hs.memory (by omega)
      exact { hs with memory := hwf }
    · cases (hostLoad_tooLong hst (by omega)).symm.trans h
      exact hs

theorem Inv.setKey {s : State} (hs : Inv s) (k : Option KeyIx) : Inv (s.setKey k) :=
  { hs with }

/-- Settles O54: by the answers of each host call; the step is O53. -/
theorem hostCallKeepsInv : Obligations.HostCallKeepsInv := by
  intro c s t hs h
  cases c with
  | construct =>
    cases h
    exact .of_running rfl (Nat.zero_le 16) rfl
  | load bytes =>
    cases hl : Machine.hostLoad bytes s with
    | next p =>
      obtain ⟨r, u⟩ := p
      simp only [HostCall.run, hl] at h
      cases h
      exact hs.hostLoad hl
    | fault e => simp [HostCall.run, hl] at h
    | refused r => simp [HostCall.run, hl] at h
  | step => exact stepKeepsInv s t hs h
  | setKey value =>
    cases value with
    | none =>
      cases h
      exact hs.setKey none
    | some k =>
      by_cases hk : k < 16
      · cases (hostSetKey_key s hk).symm.trans h
        exact hs.setKey _
      · exact absurd ((hostSetKey_outOfRange s (Nat.not_lt.mp hk)).symm.trans h) nofun

/-! ### The bounds on PC and on the return addresses -/

/-- Behind an instruction that could be fetched PC does not wrap. -/
theorem pc_add_two_toNat {pc : Word} (h : pc.toNat + 1 < 4096) : (pc + 2).toNat = pc.toNat + 2 := by
  bv_omega

theorem pc_add_four_toNat {pc : Word} (h : pc.toNat + 1 < 4096) : (pc + 4).toNat = pc.toNat + 4 := by
  bv_omega

theorem toNat_of_addressFits {nnn : Word} (h : addressFits nnn = true) : nnn.toNat < 4096 :=
  of_decide_eq_true h

/-- Where a well-formed instruction that completes leaves PC: no write of it wraps. -/
theorem Completes.pc_bound {i : Instr} {s t : State} (h : Completes i s t) (hi : i.WellFormed)
    (hpc : s.pc.toNat + 1 < 4096) (hret : ∀ w ∈ s.stack, w.toNat ≤ 0x1000) :
    t.pc.toNat ≤ 0x10FE := by
  rcases h.pc_cases with he | ⟨he, _⟩ | ⟨_, hmem⟩ | ⟨nnn, rfl | rfl, he⟩ | ⟨nnn, rfl, he⟩
  · rw [he, pc_add_two_toNat hpc]
    omega
  · rw [he, pc_add_four_toNat hpc]
    omega
  · have hle := hret _ hmem
    omega
  · have hnnn := toNat_of_addressFits hi
    rw [he]
    omega
  · have hnnn := toNat_of_addressFits hi
    rw [he]
    omega
  · have hnnn := toNat_of_addressFits hi
    have hv := (s.reg 0).isLt
    rw [he, State.jumpOffset_toNat]
    omega

/-- The return addresses after an instruction that completes: a pushed one is at most 0x1000. -/
theorem Completes.returns_bound {i : Instr} {s t : State} (h : Completes i s t)
    (hpc : s.pc.toNat + 1 < 4096) (hret : ∀ w ∈ s.stack, w.toNat ≤ 0x1000) :
    ∀ w ∈ t.stack, w.toNat ≤ 0x1000 := by
  rcases h.stack_cases with he | ⟨top, he⟩ | ⟨_, he⟩
  · rw [he]
    exact hret
  · rw [he] at hret
    exact fun w hw => hret w (List.mem_append_left _ hw)
  · intro w hw
    rw [he] at hw
    rcases List.mem_append.mp hw with hold | hnew
    · exact hret w hold
    · rw [List.mem_singleton.mp hnew, pc_add_two_toNat hpc]
      omega

/-- Settles O55: by the cases of a step; what a fetched word decodes to is well-formed, and the fetch
bounds the PC that an advance, a skip or a call starts from. -/
theorem stepKeepsPcBound : Obligations.StepKeepsPcBound := by
  intro s t hs h
  rcases step_next h with ⟨e, _, rfl⟩ | ⟨_, _, rfl⟩ | ⟨w, i, hf, hd, hc⟩ | ⟨_, _, e, _, _, _, rfl⟩ |
    ⟨w, hf, _, rfl⟩
  · exact ⟨hs.pc, hs.returns⟩
  · exact ⟨hs.pc, hs.returns⟩
  · obtain ⟨hwf, _⟩ := encodeOfDecode w i hd
    exact ⟨hc.pc_bound hwf hf.inRange hs.returns, hc.returns_bound hf.inRange hs.returns⟩
  · exact ⟨hs.pc, hs.returns⟩
  · have hpc := hf.inRange
    refine ⟨?_, hs.returns⟩
    rw [State.warnUnknown_pc, State.beginStep_pc, pc_add_two_toNat hpc]
    omega

/-- Settles O52: the constructed machine runs, with an empty memory list and stack and PC at 0x200. -/
theorem resetMeetsInvariants : Obligations.ResetMeetsInvariants :=
  ⟨inv_reset, by decide, nofun⟩

end Sys2Proof.Machine
end
